-- ==== Sys2Proof/Word.lean ====
section
/-! DEFINITION. The words of CS-FCE: byte, word, block and the fixed-size tables of rules R6, R8, R27 to R29, and the one
way a fixed-size table is written out from a function of its index. -/

namespace Sys2Proof

/-- A byte, 8 bits (00_scope.md R8). -/
abbrev Byte := BitVec 8

/-- A word, 32 bits (00_scope.md R8). -/
abbrev Word := BitVec 32

/-- A nibble, 4 bits (00_scope.md R8). -/
abbrev Nibble := BitVec 4

/-- A byte string of exactly `n` bytes, indexed from 0 (00_scope.md R8). -/
abbrev Bytes (n : Nat) := Vector Byte n

/-- A block, 8 bytes (00_scope.md R6, R8). -/
abbrev Block := Bytes 8

/-- The eight round-key words `K[0..7]` (10_state.md R27). -/
abbrev KeyWords := Vector Word 8

/-- The eight nibble groups `S[0..7][0..15]` (40_key_schedule_and_sbox.md R122). -/
abbrev Groups := Vector (Vector Nibble 16) 8

/-- The four lookup tables `T[0..3][0..255]` (10_state.md R28). -/
abbrev Tables := Vector (Vector Byte 256) 4

/-- The table whose entry `i` is `f i`. -/
def tabulate {α : Type} {n : Nat} (f : Fin n → α) : Vector α n :=
  ⟨(List.ofFn f).toArray, by simp⟩

end Sys2Proof
end

