-- ==== Sys2Proof/Syntax.lean ====
section
/-! DEFINITION. The words of the machine's language: the five host commands (one constructor a row of
spec/opcode_table.json), the source's enumerations (30_encoding.md R96), and what a host can do to the machine. -/

namespace Sys2Proof

/-- The source's Direction (30_encoding.md R96). -/
inductive Direction where
  | encrypt
  | decrypt
deriving DecidableEq, Repr

/-- The source's Mode (30_encoding.md R96). The field value 3 is no mode (10_state.md R26). -/
inductive Mode where
  | ecb
  | ofb
  | cfb
deriving DecidableEq, Repr

/-- The outcome of a command (10_state.md R24, 60_exceptions.md R210). The codes 6 and 7 are never produced and have no
constructor. -/
inductive StatusCode where
  | ok         -- all checks passed
  | errCfg     -- the source's ConfigurationError
  | errArg     -- the source's ArgumentError
  | errState   -- a transform command while unbound
  | errCmd     -- an illegal command word
  | errBus     -- an address range that passes `MEMSIZE`
deriving DecidableEq, Repr

/-- The five host commands (00_scope.md R2, 30_encoding.md R92). `mode` is the two-bit field of the command word as it
stands: the value 3 is a legal encoding of an unsupported mode (30_encoding.md R93). -/
inductive Instr where
  | crenc (mode : BitVec 2) (macf : Bool)
  | crdec (mode : BitVec 2) (macf : Bool)
  | xblk
  | xfin
  | disp
deriving DecidableEq, Repr

/-- The host-visible registers by name (10_state.md R21). -/
inductive RegName where
  | cmd | status | result | config
  | keyBase | keyLen | ivBase | ivLen | sboxBase | sboxLen
  | inBase | inSize | inOff | inCnt | outBase | outSize | outOff
deriving DecidableEq, Repr

/-- What the outside world can do to the machine, one access at a time (00_scope.md R12 (8), 30_encoding.md R97).
A write of register 0 issues a command (30_encoding.md R90). -/
inductive HostOp where
  | writeReg (n : Nat) (v : Word)                 -- `WR`, register `n` of the engine addressed
  | readReg (n : Nat)                             -- `RD`
  | writeMem (addr : Nat) (bytes : List Byte)     -- `MEMW`, byte 0 at `addr`, in the memory of the engine addressed
  | readMem (addr n : Nat)                        -- `MEMR`, `n` bytes from `addr`
  | select (engine : Nat)                         -- the accesses that follow address this engine (60_exceptions.md R225)
  | reset                                         -- the platform's reset (70_reset_and_hazards.md R240)
deriving DecidableEq, Repr

/-- What a host read brings back. -/
inductive HostReply where
  | reg (n : Nat) (v : Word)                      -- the register number read and its value
  | mem (addr : Nat) (bytes : List Byte)          -- the address read and the bytes from it
deriving DecidableEq, Repr

end Sys2Proof
end

