-- ==== Sys2Proof/Decode.lean ====
section
/-! DEFINITION. The command word (30_encoding.md R90 to R94): the decoder, total on every 32-bit word and rejecting by name,
and the encoder. -/

namespace Sys2Proof

/-- Why a command word is illegal (30_encoding.md R94). -/
inductive Illegal where
  | unknownOpcode   -- `OP` is none of 0x01, 0x02, 0x10, 0x11, 0x1F
  | reservedBits    -- a bit that must be 0 is set: 31:11, or 10:8 of `XBLK`, `XFIN`, `DISP`
deriving DecidableEq, Repr

/-- What a command word is. -/
inductive Decoded where
  | command (i : Instr)
  | illegal (why : Illegal)
deriving DecidableEq, Repr

/-- Field `OP`, bits 7:0 (30_encoding.md R91). -/
def fieldOp (w : Word) : BitVec 8 := w.extractLsb' 0 8

/-- Field `MODE`, bits 9:8 (30_encoding.md R91). -/
def fieldMode (w : Word) : BitVec 2 := w.extractLsb' 8 2

/-- Field `MACF`, bit 10 (30_encoding.md R91). -/
def fieldMacf (w : Word) : Bool := w.getLsbD 10

/-- Field `RSV`, bits 31:11 (30_encoding.md R91). -/
def fieldRsv (w : Word) : BitVec 21 := w.extractLsb' 11 21

/-- The command `i`, unless a bit of the word that must be 0 is set. -/
def unlessReserved (bad : Bool) (i : Instr) : Decoded :=
  if bad then .illegal .reservedBits else .command i

/-- The decoder (30_encoding.md R92 to R94). -/
def decodeWord (w : Word) : Decoded :=
  let badCreate := fieldRsv w != 0
  let badPlain := fieldRsv w != 0 || fieldMacf w || fieldMode w != 0
  if fieldOp w = 0x01#8 then unlessReserved badCreate (.crenc (fieldMode w) (fieldMacf w))
  else if fieldOp w = 0x02#8 then unlessReserved badCreate (.crdec (fieldMode w) (fieldMacf w))
  else if fieldOp w = 0x10#8 then unlessReserved badPlain .xblk
  else if fieldOp w = 0x11#8 then unlessReserved badPlain .xfin
  else if fieldOp w = 0x1F#8 then unlessReserved badPlain .disp
  else .illegal .unknownOpcode

/-- The instruction of a word, if it has one. -/
def Decoded.instr? : Decoded → Option Instr
  | .command i => some i
  | .illegal _ => none

/-- The instruction that the decoder reads from the `nbits` bits of `w`; every bit above them is 0. A command has one
length, 32 bits (30_encoding.md R90): a longer word is no command. -/
def decodeTableWord (nbits w : Nat) : Option Instr :=
  let v := w % 2 ^ nbits
  if v < 2 ^ 32 then (decodeWord (BitVec.ofNat 32 v)).instr? else none

/-- A command word from its four fields, most significant first (30_encoding.md R91). -/
def packWord (rsv : BitVec 21) (macf : Bool) (mode : BitVec 2) (op : BitVec 8) : Word :=
  rsv ++ BitVec.ofBool macf ++ mode ++ op

/-- The encoder (30_encoding.md R91, R92). -/
def encode : Instr → Word
  | .crenc mode macf => packWord 0 macf mode 0x01#8
  | .crdec mode macf => packWord 0 macf mode 0x02#8
  | .xblk => packWord 0 false 0 0x10#8
  | .xfin => packWord 0 false 0 0x11#8
  | .disp => packWord 0 false 0 0x1F#8

end Sys2Proof
end

