-- ==== Sys2Proof/Config.lean ====
section
/-! DEFINITION. What an implementation of CS-FCE fixes (00_scope.md R7: `MEMSIZE`, `NIBBLE_ORDER`, `PAIRING`, `M0`,
`NINST`), how the data memory is written down, and the values the spec leaves unspecified after a reset.

The five parameters, and which engine has which data memory, are the fields of one record that the machine carries and no
step changes: a statement about every state is a statement about every choice of them. -/

namespace Sys2Proof

/-- How entry `e` of a group lies in its byte of S-box material (00_scope.md R7, 40_key_schedule_and_sbox.md R122). -/
inductive NibbleOrder where
  | lowFirst    -- even `e` in bits 3:0, odd `e` in bits 7:4 (the default)
  | highFirst   -- even `e` in bits 7:4, odd `e` in bits 3:0
deriving DecidableEq, Repr

/-- The data memory: the bytes that differ from `Memory.unlisted`, by strictly rising address. Every total map from the
addresses of 20_memory.md R60 to bytes has exactly one such list. -/
abbrev Memory := List Host.Cell

/-- What an address that is not listed holds. It is how a memory is written down and settles nothing about its contents:
the contents at reset are the parameter `m0`, which may list any byte. -/
def Memory.unlisted : Byte := 0#8

/-- The parameters of the model (00_scope.md R7), and which data memory each engine is given (60_exceptions.md R225; log
entry 9). Every data memory has `MEMSIZE` bytes and holds `M0` at reset. -/
structure Params where
  memSize     : Nat                          -- `MEMSIZE`, bytes of data memory, 1 to 2^32
  nibbleOrder : NibbleOrder                  -- `NIBBLE_ORDER`
  pairing     : Vector (Fin 8 × Fin 8) 4     -- `PAIRING`: (high group, low group) of each table
  m0          : Memory                       -- `M0`, the data memory at reset
  nInst       : Nat                          -- `NINST`, the number of engines
  memoryIds   : List Nat                     -- entry `n`: the number of the data memory that engine `n` is given
deriving DecidableEq, Repr

/-- The private words of engine `engine` after the platform's reset number `reset`: index 0 to 7 is `K`, 8 is `n1`, 9 is
`n2`. Unspecified (70_reset_and_hazards.md R241): a free value, log entry 3. -/
opaque Config.resetWord (reset engine index : Nat) : Word

/-- The private bytes of engine `engine` after the platform's reset number `reset`: index `256 i + b` is `T[i][b]`,
`1024 + i` is `FB[i]`. Unspecified (70_reset_and_hazards.md R241): a free value, log entry 3. -/
opaque Config.resetByte (reset engine index : Nat) : Byte

end Sys2Proof
end

