-- ==== Sys2Proof/Machine/Bytes.lean ====
section
/-! DEFINITION. Byte order, byte strings and the 32-bit rotation (00_scope.md R8, R9; 20_memory.md R63): everything is
little-endian. -/

namespace Sys2Proof.Machine

open Sys2Proof

/-- `le32`: the word whose least significant byte is `b0` (00_scope.md R9). -/
def le32 (b0 b1 b2 b3 : Byte) : Word := b3 ++ b2 ++ b1 ++ b0

/-- Byte `i` of a word, bits `8 i + 7 : 8 i`. -/
def byteOf (w : Word) (i : Nat) : Byte := w.extractLsb' (8 * i) 8

/-- The word in bytes 0 to 3 of a block (41_round_function_and_feistel_core.md R144, 10_state.md R29). -/
def loWord (b : Block) : Word := le32 b[0] b[1] b[2] b[3]

/-- The word in bytes 4 to 7 of a block (41_round_function_and_feistel_core.md R144, 10_state.md R29). -/
def hiWord (b : Block) : Word := le32 b[4] b[5] b[6] b[7]

/-- `bytes_le32(lo) ++ bytes_le32(hi)` (00_scope.md R9). -/
def blockOf (lo hi : Word) : Block :=
  #v[byteOf lo 0, byteOf lo 1, byteOf lo 2, byteOf lo 3, byteOf hi 0, byteOf hi 1, byteOf hi 2, byteOf hi 3]

/-- Bytewise exclusive or of two blocks (41_round_function_and_feistel_core.md R150 (b)). -/
def xorBlock (x y : Block) : Block := Vector.zipWith (· ^^^ ·) x y

/-- `rotl32` (00_scope.md R9). -/
def rotl32 (v : Word) (n : Nat) : Word := (v <<< n) ||| (v >>> (32 - n))

end Sys2Proof.Machine
end

