-- ==== Sys2Proof/Machine/KeySchedule.lean ====
section
/-! DEFINITION. `KEYSCHED`, `SBOXUNPACK`, `SBOXBUILD` (40_key_schedule_and_sbox.md). -/

namespace Sys2Proof.Machine

open Sys2Proof

/-- `KEYSCHED` (40_key_schedule_and_sbox.md R120). -/
def keySched (key : Bytes 32) : KeyWords :=
  tabulate fun i => le32 key[4 * i.val] key[4 * i.val + 1] key[4 * i.val + 2] key[4 * i.val + 3]

/-- Entry `e` of a group, in the byte of S-box material that holds it (40_key_schedule_and_sbox.md R122). -/
def entryOf (order : NibbleOrder) (e : Nat) (byte : Byte) : Nibble :=
  let low := byte.extractLsb' 0 4
  let high := byte.extractLsb' 4 4
  match order with
  | .lowFirst => if e % 2 = 0 then low else high
  | .highFirst => if e % 2 = 0 then high else low

/-- `SBOXUNPACK` (40_key_schedule_and_sbox.md R122). -/
def sboxUnpack (order : NibbleOrder) (sbox : Bytes 64) : Groups :=
  tabulate fun g => tabulate fun e => entryOf order e.val sbox[8 * g.val + e.val / 2]

/-- `SBOXBUILD` (40_key_schedule_and_sbox.md R123). -/
def sboxBuild (pairing : Vector (Fin 8 × Fin 8) 4) (groups : Groups) : Tables :=
  tabulate fun i => tabulate fun b =>
    (groups[pairing[i].1])[b.val / 16]'(by omega) ++ (groups[pairing[i].2])[b.val % 16]'(by omega)

end Sys2Proof.Machine
end

