-- ==== Sys2Proof/Machine/RoundFunction.lean ====
section
/-! DEFINITION. The round function `F`, one round, and the 32-round networks `FENC` and `FDEC`
(41_round_function_and_feistel_core.md). -/

namespace Sys2Proof.Machine

open Sys2Proof

/-- The entry of a table for a byte. -/
def lookup (table : Vector Byte 256) (b : Byte) : Byte := table[b.toNat]'(by have := b.isLt; omega)

/-- The word with byte `i` put through table `T[i]` (41_round_function_and_feistel_core.md R140). -/
def substitute (t : Tables) (x : Word) : Word :=
  le32 (lookup t[0] (byteOf x 0)) (lookup t[1] (byteOf x 1)) (lookup t[2] (byteOf x 2)) (lookup t[3] (byteOf x 3))

/-- `F` (41_round_function_and_feistel_core.md R140). -/
def roundF (t : Tables) (x : Word) : Word := rotl32 (substitute t x) 11

/-- The working words `n1`, `n2` (10_state.md R31). -/
structure Halves where
  n1 : Word
  n2 : Word
deriving DecidableEq, Repr

/-- `ROUND(r, idx)` (41_round_function_and_feistel_core.md R143): even rounds update `n2`, odd rounds `n1`. -/
def roundStep (k : KeyWords) (t : Tables) (r : Nat) (idx : Fin 8) (h : Halves) : Halves :=
  if r % 2 = 0 then { h with n2 := h.n2 ^^^ roundF t (h.n1 + k[idx]) }
  else { h with n1 := h.n1 ^^^ roundF t (h.n2 + k[idx]) }

/-- `ENCIDX[r]` (41_round_function_and_feistel_core.md R142). -/
def encIdx (r : Nat) : Fin 8 := if r < 24 then ⟨r % 8, by omega⟩ else ⟨7 - r % 8, by omega⟩

/-- `DECIDX[r]` (41_round_function_and_feistel_core.md R142). -/
def decIdx (r : Nat) : Fin 8 := if r < 8 then ⟨r % 8, by omega⟩ else ⟨7 - r % 8, by omega⟩

/-- Rounds `r`, `r + 1`, … with the given key indices (10_state.md R33: the round index starts at 0 and advances by 1
after each round). -/
def runRounds (k : KeyWords) (t : Tables) : Nat → List (Fin 8) → Halves → Halves
  | _, [], h => h
  | r, idx :: rest, h => runRounds k t (r + 1) rest (roundStep k t r idx h)

/-- `LOADBLK` (41_round_function_and_feistel_core.md R144). -/
def loadBlock (b : Block) : Halves := ⟨loWord b, hiWord b⟩

/-- `STOREBLK`: `n2` in bytes 0 to 3, `n1` in bytes 4 to 7 (41_round_function_and_feistel_core.md R145). -/
def storeBlock (h : Halves) : Block := blockOf h.n2 h.n1

/-- `n1`, `n2` after the 32 rounds of `FENC` (41_round_function_and_feistel_core.md R146). -/
def fencHalves (k : KeyWords) (t : Tables) (b : Block) : Halves :=
  runRounds k t 0 ((List.range 32).map encIdx) (loadBlock b)

/-- `n1`, `n2` after the 32 rounds of `FDEC` (41_round_function_and_feistel_core.md R148). -/
def fdecHalves (k : KeyWords) (t : Tables) (b : Block) : Halves :=
  runRounds k t 0 ((List.range 32).map decIdx) (loadBlock b)

/-- `FENC` (41_round_function_and_feistel_core.md R146). -/
def fenc (k : KeyWords) (t : Tables) (b : Block) : Block := storeBlock (fencHalves k t b)

/-- `FDEC` (41_round_function_and_feistel_core.md R148). -/
def fdec (k : KeyWords) (t : Tables) (b : Block) : Block := storeBlock (fdecHalves k t b)

end Sys2Proof.Machine
end

