-- ==== Sys2Proof/Machine/Defaults.lean ====
section
/-! DEFINITION. The parameter values of the reset state: the defaults of 00_scope.md R7 where it gives one, and the
model's choice (log entry 1) where it says OPEN. -/

namespace Sys2Proof.Machine

open Sys2Proof

/-- `PAIRING`'s default, (high, low) of `T[0]` to `T[3]` (00_scope.md R7, 40_key_schedule_and_sbox.md R123). -/
def defaultPairing : Vector (Fin 8 × Fin 8) 4 := #v[(1, 0), (3, 2), (5, 4), (7, 6)]

/-- `MEMSIZE` of the reset state: every 32-bit address exists. DESIGN CHOICE, log entry 1: the spec says OPEN. -/
def defaultMemSize : Nat := 2 ^ 32

/-- `M0` of the reset state: all bytes zero. DESIGN CHOICE, log entry 1: the spec says OPEN. -/
def defaultM0 : Memory := []

/-- The parameters of the reset state. -/
def defaultParams : Params where
  memSize := defaultMemSize
  nibbleOrder := .lowFirst
  pairing := defaultPairing
  m0 := defaultM0
  nInst := 1
  memoryIds := [0]

end Sys2Proof.Machine
end

