-- ==== Sys2Proof/Machine/State.lean ====
section
/-! DEFINITION. The state of the machine (10_state.md R20 to R37), as plain data: one engine's registers and private cipher
state and its data memory, the other engines of the system and theirs, the host's accesses that wait and the replies to its reads. -/

namespace Sys2Proof.Machine

open Sys2Proof

/-- Registers 4 to 16, written by the host alone (10_state.md R21). -/
structure Descriptors where
  keyBase  : Word
  keyLen   : Word
  ivBase   : Word
  ivLen    : Word
  sboxBase : Word
  sboxLen  : Word
  inBase   : Word
  inSize   : Word
  inOff    : Word     -- signed
  inCnt    : Word     -- signed
  outBase  : Word
  outSize  : Word
  outOff   : Word     -- signed
deriving DecidableEq, Repr

/-- What `CONFIG` holds of a bound transform (10_state.md R26). -/
structure Binding where
  dir  : Direction
  mode : Mode
  macf : Bool
deriving DecidableEq, Repr

/-- One engine (10_state.md R20). The counters `j`, `r`, `i` have no value between commands and no field (R33; log entry 11);
`n1` and `n2` keep what the last network left (log entry 10). `CMD` has no storage: it reads as 0 (10_state.md R22, 30_encoding.md R90). -/
structure Engine where
  status  : StatusCode        -- `STATUS` (R24)
  result  : Word              -- `RESULT` (R25)
  binding : Option Binding    -- `CONFIG` (R26): `none` is `BOUND = 0`
  desc    : Descriptors       -- registers 4 to 16 (R21)
  k       : KeyWords          -- `K[0..7]` (R27)
  t       : Tables            -- `T[0..3][0..255]` (R28)
  fb      : Block             -- `FB[0..7]` (R29)
  n1      : Word              -- working word `n1` (R31)
  n2      : Word              -- working word `n2` (R31)
deriving DecidableEq, Repr

/-- The machine. `eng` is the engine that the host's accesses address, number `engineId`, and `mem` the data memory that it
is given, which the host sees too (20_memory.md R60); the other engines, each with its number, are `peers`, and the data
memories that only those are given, each with its number, are `otherMems` (60_exceptions.md R225; log entry 9). `inbox`
holds the host's accesses that have not happened yet, next first (log entry 7), and `replies` what its reads brought back,
latest first (log entry 17); `resets` counts the platform's resets and selects the values that are free after one (log
entry 3). -/
structure State where
  params    : Params
  engineId  : Nat
  eng       : Engine
  peers     : List (Nat × Engine)
  mem       : Memory
  otherMems : List (Nat × Memory)
  inbox     : List HostOp
  replies   : List HostReply
  resets    : Nat
deriving DecidableEq, Repr

/-- Why the machine stops. No command and no register access stops it (00_scope.md R12 (5)): only a host access to what
the spec says does not exist (log entry 8). -/
inductive Fault where
  /-- Raised by `step` for a host access of `n` bytes at `addr` that passes `MEMSIZE`: such an address does not exist
  (20_memory.md R60). Safe. -/
  | addressDoesNotExist (addr n : Nat)
  /-- Raised by `step` when the host addresses an engine number the system has not (60_exceptions.md R225). Safe. -/
  | engineDoesNotExist (engine : Nat)
deriving DecidableEq, Repr

/-- Why the model gives no meaning. -/
inductive Refusal where
  /-- Raised by `exec` for an instruction without a meaning, named as the opcode table names it; no arm raises it. Safe. -/
  | notModelled (mnemonic : String)
deriving DecidableEq, Repr

/-- All thirteen descriptor registers 0 (10_state.md R36). -/
def Descriptors.reset : Descriptors :=
  ⟨0, 0, 0, 0, 0, 0, 0, 0, 0, 0, 0, 0, 0⟩

/-- An engine right after reset (10_state.md R36): `STATUS = OK`, `RESULT = 0`, unbound, descriptors 0. `K`, `T`, `FB`,
`n1`, `n2` are unspecified; zero here is DESIGN CHOICE, log entry 2. -/
def Engine.reset : Engine where
  status := .ok
  result := 0
  binding := none
  desc := Descriptors.reset
  k := Vector.replicate 8 0
  t := Vector.replicate 4 (Vector.replicate 256 0)
  fb := Vector.replicate 8 0
  n1 := 0
  n2 := 0

/-- The machine right after reset (10_state.md R36, 70_reset_and_hazards.md R241), nothing asked of it yet. -/
def State.reset : State where
  params := defaultParams
  engineId := 0
  eng := Engine.reset
  peers := []
  mem := defaultParams.m0
  otherMems := []
  inbox := []
  replies := []
  resets := 0

end Sys2Proof.Machine
end

