-- ==== Sys2Proof/Machine/ModeEngine.lean ====
section
/-! DEFINITION. The mode engine (42_mode_engine.md): `SEED`, `ECB`, `OFBADV`, `OFB`, `CFBE`, `CFBD`, `BLOCKSTEP`. An
operation that transforms a block answers the engine it leaves and the output block. -/

namespace Sys2Proof.Machine

open Sys2Proof

/-- The engine with its working words as a network left them (41_round_function_and_feistel_core.md R146: "State
written"). -/
def Engine.working (h : Halves) (e : Engine) : Engine := { e with n1 := h.n1, n2 := h.n2 }

/-- `FENC` run by the engine. -/
def Engine.runFenc (b : Block) (e : Engine) : Engine × Block := (e.working (fencHalves e.k e.t b), fenc e.k e.t b)

/-- `FDEC` run by the engine. -/
def Engine.runFdec (b : Block) (e : Engine) : Engine × Block := (e.working (fdecHalves e.k e.t b), fdec e.k e.t b)

/-- `SEED` (42_mode_engine.md R160), in both directions and all modes. -/
def Engine.seed (iv : Block) (e : Engine) : Engine :=
  let r := e.runFenc iv
  { r.1 with fb := r.2 }

/-- `ECB` (42_mode_engine.md R162). -/
def Engine.ecb (dir : Direction) (x : Block) (e : Engine) : Engine × Block :=
  match dir with
  | .encrypt => e.runFenc x
  | .decrypt => e.runFdec x

/-- The low word's advance (42_mode_engine.md R163). -/
def advanceLo (lo : Word) : Word := lo + 0x01010101#32

/-- The high word's advance, on unbounded integers (42_mode_engine.md R163). The sum is at least `0x01010104`, so the
difference is that of the integers. -/
def advanceHi (hi : Word) : Word := BitVec.ofNat 32 ((hi.toNat + 0x01010104 - 1) % 0xFFFFFFFF + 1)

/-- `adv`, the function that `OFBADV` computes (42_mode_engine.md R163, R170). -/
def advance (fb : Block) : Block := blockOf (advanceLo (loWord fb)) (advanceHi (hiWord fb))

/-- `OFBADV` (42_mode_engine.md R163). -/
def Engine.ofbAdv (e : Engine) : Engine := { e with fb := advance e.fb }

/-- `OFB` (42_mode_engine.md R165): the register advances first and never holds the keystream. -/
def Engine.ofb (x : Block) (e : Engine) : Engine × Block :=
  let advanced := e.ofbAdv
  let g := advanced.runFenc advanced.fb
  (g.1, xorBlock x g.2)

/-- `CFBE` (42_mode_engine.md R167). -/
def Engine.cfbe (x : Block) (e : Engine) : Engine × Block :=
  let y := xorBlock x e.fb
  let g := e.runFenc y
  ({ g.1 with fb := g.2 }, y)

/-- `CFBD` (42_mode_engine.md R168): the ciphertext is fed back, through `FENC`. -/
def Engine.cfbd (x : Block) (e : Engine) : Engine × Block :=
  let y := xorBlock x e.fb
  let g := e.runFenc x
  ({ g.1 with fb := g.2 }, y)

/-- `BLOCKSTEP` (42_mode_engine.md R161). -/
def Engine.blockStep (b : Binding) (x : Block) (e : Engine) : Engine × Block :=
  match b.mode, b.dir with
  | .ecb, dir => e.ecb dir x
  | .ofb, _ => e.ofb x
  | .cfb, .encrypt => e.cfbe x
  | .cfb, .decrypt => e.cfbd x

end Sys2Proof.Machine
end

