-- ==== Sys2Proof/Machine/Operands.lean ====
section
/-! DEFINITION. How a command reads its operands (30_encoding.md R95, 20_memory.md R67): bases, lengths and sizes unsigned,
`IN_OFF`, `IN_CNT`, `OUT_OFF` signed, every sum on unbounded integers; and the field `MODE` of the command word. -/

namespace Sys2Proof.Machine

open Sys2Proof

/-- `sint`: the two's complement value of a word (00_scope.md R8). -/
def sint (v : Word) : Int := if v.toNat < 2 ^ 31 then (v.toNat : Int) else (v.toNat : Int) - 2 ^ 32

/-- An unsigned word as an unbounded integer. -/
def uint (v : Word) : Int := (v.toNat : Int)

/-- `cnt = sint(IN_CNT)` (43_block_transform_commands.md R189). -/
def Descriptors.count (d : Descriptors) : Int := sint d.inCnt

/-- `ia = IN_BASE + sint(IN_OFF)` (43_block_transform_commands.md R188). -/
def Descriptors.inStart (d : Descriptors) : Int := uint d.inBase + sint d.inOff

/-- `oa = OUT_BASE + sint(OUT_OFF)` (43_block_transform_commands.md R188). -/
def Descriptors.outStart (d : Descriptors) : Int := uint d.outBase + sint d.outOff

/-- The mode that a field `MODE` asks for; 3 is unsupported (30_encoding.md R93, R96). -/
def modeOfField (field : BitVec 2) : Option Mode :=
  if field = 0#2 then some .ecb
  else if field = 1#2 then some .ofb
  else if field = 2#2 then some .cfb
  else none

end Sys2Proof.Machine
end

