-- ==== Sys2Proof/WellFormed.lean ====
section
/-! DEFINITION. What must hold of data before it means anything: of a memory list, of the parameters, of a host access.

There is no check of `Instr`: the types of its fields are the widths of the command word's fields (30_encoding.md R91) and
every value of every field decodes to the command (30_encoding.md R93), so every term of `Instr` is well formed. -/

namespace Sys2Proof

/-- The canonical form from address `lo` on: every address at or above `lo` and above the one before it, and no byte that
an unlisted address holds. -/
def Memory.wfFrom (lo : Nat) : Memory → Bool
  | [] => true
  | (a, b) :: rest => decide (lo ≤ a) && b != Memory.unlisted && Memory.wfFrom (a + 1) rest

/-- The canonical form of a memory. -/
def Memory.wf (m : Memory) : Bool := Memory.wfFrom 0 m

/-- Every listed address exists in a memory of `size` bytes (20_memory.md R60). -/
def Memory.within (size : Nat) (m : Memory) : Bool := m.all fun c => decide (c.1 < size)

/-- The parameters are among those of 00_scope.md R7: `1 ≤ MEMSIZE ≤ 2^32`, `M0` a memory of that size, at least one
engine; and every engine is given a data memory (60_exceptions.md R225). -/
def Params.wf (p : Params) : Bool :=
  decide (1 ≤ p.memSize) && decide (p.memSize ≤ 2 ^ 32) && Memory.wf p.m0 && Memory.within p.memSize p.m0
    && decide (1 ≤ p.nInst) && decide (p.memoryIds.length = p.nInst)

/-- The range of `n` bytes from `addr` lies in the data memory, on unbounded integers; a range of no bytes accesses
nothing (20_memory.md R60, R61). -/
def rangeExists (size addr n : Nat) : Bool := n == 0 || decide (addr + n ≤ size)

/-- A host access that touches only what exists: bytes of `M` (20_memory.md R73) and engines of the system
(60_exceptions.md R225). Every register number is legal (10_state.md R22). -/
def HostOp.wf (p : Params) : HostOp → Bool
  | .writeReg _ _ => true
  | .readReg _ => true
  | .writeMem addr bytes => rangeExists p.memSize addr bytes.length
  | .readMem addr n => rangeExists p.memSize addr n
  | .select engine => decide (engine < p.nInst)
  | .reset => true

end Sys2Proof
end

