-- ==== Sys2Proof/Machine/Ops.lean ====
section
/-! DEFINITION. The shared operations: the data memory (20_memory.md), ending a command and raising an error
(60_exceptions.md R214), the frame of a command (43_block_transform_commands.md R180), and the engines and data
memories of the system (60_exceptions.md R225).

A raised error is this machine's exception. Nothing is saved and control goes nowhere, so there is nothing to return from:
no instruction returns and no operation here does (60_exceptions.md R214, R216, R217). -/

namespace Sys2Proof

/-- The byte at address `a` (20_memory.md R60). -/
def Memory.read : Memory → Nat → Byte
  | [], _ => Memory.unlisted
  | (a', b) :: rest, a => if a = a' then b else Memory.read rest a

/-- Byte `b` at `a` in front of the bytes `rest`, unless that is what an unlisted address holds. -/
def Memory.cons (a : Nat) (b : Byte) (rest : Memory) : Memory :=
  if b = Memory.unlisted then rest else (a, b) :: rest

/-- The memory with byte `b` at address `a`, in canonical form (20_memory.md R60, R62). -/
def Memory.write : Memory → Nat → Byte → Memory
  | [], a, b => Memory.cons a b []
  | (a', b') :: rest, a, b =>
    if a < a' then Memory.cons a b ((a', b') :: rest)
    else if a = a' then Memory.cons a b rest
    else (a', b') :: Memory.write rest a b

/-- `MemRead(addr, n)` (20_memory.md R61). -/
def Memory.readBytes (m : Memory) (addr n : Nat) : Bytes n := tabulate fun i => Memory.read m (addr + i.val)

/-- `MemWrite(addr, n, B)`, byte by byte from the lowest address (20_memory.md R62). -/
def Memory.writeBytes : Memory → Nat → List Byte → Memory
  | m, _, [] => m
  | m, addr, b :: bytes => Memory.writeBytes (Memory.write m addr b) (addr + 1) bytes

/-- The number of the data memory that engine `n` is given (60_exceptions.md R225). -/
def Params.memoryOf (p : Params) (n : Nat) : Nat := p.memoryIds.getD n 0

end Sys2Proof

namespace Sys2Proof.Machine

open Sys2Proof

/-- What a step, an instruction or a host access answers. -/
abbrev Answer := Host.Outcome State Fault Refusal

/-- The end of a command: `STATUS` and `RESULT` are written, once (10_state.md R24, R25). -/
def State.finish (code : StatusCode) (result : Word) (s : State) : State :=
  { s with eng := { s.eng with status := code, result := result } }

/-- `raise <Err>`: `STATUS <- code`, `RESULT <- 0`, and nothing else changes (60_exceptions.md R214). -/
def raise (code : StatusCode) (s : State) : Answer := .next (s.finish code 0)

/-- The code of the first check that fails; a check is the condition on which it fails and its code
(60_exceptions.md R213). -/
def firstFailure : List (Bool × StatusCode) → Option StatusCode
  | [] => none
  | (fails, code) :: rest => if fails then some code else firstFailure rest

/-- The frame of every command (43_block_transform_commands.md R180): the checks in their order, then the action, which
answers the result count with the state it leaves. -/
def commandFrame (checks : List (Bool × StatusCode)) (action : State → State × Word) (s : State) : Answer :=
  match firstFailure checks with
  | some code => raise code s
  | none => .next ((action s).1.finish .ok (action s).2)

/-- The thing with number `n` in a list of numbered things. -/
def findNumbered {α : Type} (n : Nat) : List (Nat × α) → Option α
  | [] => none
  | (m, x) :: rest => if m = n then some x else findNumbered n rest

/-- The list with the entry of number `n` replaced by `entry`. -/
def replaceNumbered {α : Type} (n : Nat) (entry : Nat × α) : List (Nat × α) → List (Nat × α)
  | [] => []
  | (m, x) :: rest => if m = n then entry :: rest else (m, x) :: replaceNumbered n entry rest

/-- Engine number `n` of the system, addressed by the host or not (60_exceptions.md R225). -/
def State.engineAt (s : State) (n : Nat) : Option Engine :=
  if n = s.engineId then some s.eng else findNumbered n s.peers

/-- The number of the data memory `mem`. -/
def State.memoryId (s : State) : Nat := s.params.memoryOf s.engineId

/-- Data memory number `m` of the system, that of the engine addressed or another. -/
def State.memoryAt (s : State) (m : Nat) : Option Memory :=
  if m = s.memoryId then some s.mem else findNumbered m s.otherMems

/-- The data memories besides number `m`: that one leaves the list and `mem` takes its place. -/
def State.memoriesBeside (s : State) (m : Nat) : List (Nat × Memory) :=
  if m = s.memoryId then s.otherMems else replaceNumbered m (s.memoryId, s.mem) s.otherMems

end Sys2Proof.Machine
end

