-- ==== Sys2Proof/Machine/Create.lean ====
section
/-! DEFINITION. `CRENC` and `CRDEC`, the construction of a transform (43_block_transform_commands.md R181 to R186). -/

namespace Sys2Proof.Machine

open Sys2Proof

/-- The checks of `CRENC`/`CRDEC` after that of the mode field, in order: lengths (43_block_transform_commands.md R183),
then address ranges (R184). -/
def createChecks (memSize : Nat) (d : Descriptors) : List (Bool × StatusCode) :=
  [ (decide (d.keyLen.toNat ≠ 32), .errCfg),
    (decide (d.sboxLen.toNat ≠ 64), .errCfg),
    (decide (d.ivLen.toNat ≠ 8), .errCfg),
    (decide (d.keyBase.toNat + 32 > memSize), .errBus),
    (decide (d.sboxBase.toNat + 64 > memSize), .errBus),
    (decide (d.ivBase.toNat + 8 > memSize), .errBus) ]

/-- Derivation and commit (43_block_transform_commands.md R186). -/
def Engine.bindTo (p : Params) (b : Binding) (key : Bytes 32) (sbox : Bytes 64) (iv : Block) (e : Engine) : Engine :=
  let keyed := { e with k := keySched key }
  let tabled := { keyed with t := sboxBuild p.pairing (sboxUnpack p.nibbleOrder sbox) }
  { tabled.seed iv with binding := some b }

/-- Material read and commit, result count 0 (43_block_transform_commands.md R185, R186). -/
def createAction (b : Binding) (s : State) : State × Word :=
  let key := Memory.readBytes s.mem s.eng.desc.keyBase.toNat 32
  let sbox := Memory.readBytes s.mem s.eng.desc.sboxBase.toNat 64
  let iv := Memory.readBytes s.mem s.eng.desc.ivBase.toNat 8
  ({ s with eng := s.eng.bindTo s.params b key sbox iv }, 0)

/-- `CRENC` and `CRDEC` alike but for the direction (43_block_transform_commands.md R181, R182). The first check is that of
the mode field (R183, check 1). -/
def createTransform (dir : Direction) (mode : BitVec 2) (macf : Bool) (s : State) : Answer :=
  match modeOfField mode with
  | none => raise .errCfg s
  | some m => commandFrame (createChecks s.params.memSize s.eng.desc) (createAction ⟨dir, m, macf⟩) s

/-- `CRENC` (43_block_transform_commands.md R181). -/
def execCrenc (mode : BitVec 2) (macf : Bool) (s : State) : Answer := createTransform .encrypt mode macf s

/-- `CRDEC` (43_block_transform_commands.md R182). -/
def execCrdec (mode : BitVec 2) (macf : Bool) (s : State) : Answer := createTransform .decrypt mode macf s

end Sys2Proof.Machine
end

