-- ==== Sys2Proof/Machine/Dispose.lean ====
section
/-! DEFINITION. `DISP`, disposal (43_block_transform_commands.md R197). -/

namespace Sys2Proof.Machine

open Sys2Proof

/-- The engine without its transform: private state zero, unbound (43_block_transform_commands.md R197). -/
def Engine.dispose (e : Engine) : Engine :=
  { e with
    k := Vector.replicate 8 0
    t := Vector.replicate 4 (Vector.replicate 256 0)
    fb := Vector.replicate 8 0
    n1 := 0
    n2 := 0
    binding := none }

/-- `DISP` (43_block_transform_commands.md R197): no check, result count 0. It writes `STATUS` and `RESULT` like every command
(log entry 12). -/
def execDisp (s : State) : Answer := commandFrame [] (fun s => ({ s with eng := s.eng.dispose }, 0)) s

end Sys2Proof.Machine
end

