-- ==== Sys2Proof/Machine/Transform.lean ====
section
/-! DEFINITION. `XBLK` and `XFIN`, the transform commands (43_block_transform_commands.md R187 to R196). -/

namespace Sys2Proof.Machine

open Sys2Proof

/-- The argument checks of `XBLK`, in order (43_block_transform_commands.md R189). -/
def xblkArgChecks (d : Descriptors) : List (Bool × StatusCode) :=
  [ (decide (d.count ≤ 0), .errArg),
    (decide (d.count % 8 ≠ 0), .errArg),
    (decide (sint d.inOff < 0), .errArg),
    (decide (sint d.outOff < 0), .errArg),
    (decide (sint d.inOff + d.count > uint d.inSize), .errArg),
    (decide (sint d.outOff + d.count > uint d.outSize), .errArg) ]

/-- The argument checks of `XFIN`, in order (43_block_transform_commands.md R193). -/
def xfinArgChecks (b : Binding) (d : Descriptors) : List (Bool × StatusCode) :=
  [ (decide (d.count < 0), .errArg),
    (decide (sint d.inOff < 0), .errArg),
    (decide (sint d.inOff + d.count > uint d.inSize), .errArg),
    (decide (d.count % 8 ≠ 0), .errArg),
    (decide (d.count = 0 ∧ b.mode ≠ .ecb ∧ b.macf = false), .errArg),
    (decide (d.count > 0 ∧ sint d.outOff < 0), .errArg),
    (decide (d.count > 0 ∧ sint d.outOff + d.count > uint d.outSize), .errArg) ]

/-- The address range checks of both, in order; a call of no bytes accesses nothing (43_block_transform_commands.md R190,
R192). -/
def transformBusChecks (memSize : Nat) (d : Descriptors) : List (Bool × StatusCode) :=
  [ (decide (d.count > 0 ∧ d.inStart + d.count > memSize), .errBus),
    (decide (d.count > 0 ∧ d.outStart + d.count > memSize), .errBus) ]

/-- One block: 8 bytes read at `ia`, transformed, 8 bytes written at `oa` (43_block_transform_commands.md R188). -/
def blockOnce (b : Binding) (ia oa : Nat) (e : Engine) (m : Memory) : Engine × Memory :=
  let r := e.blockStep b (Memory.readBytes m ia 8)
  (r.1, Memory.writeBytes m oa r.2.toList)

/-- `n` blocks, the first at `ia` and `oa`, in ascending order (43_block_transform_commands.md R188). -/
def blockLoop (b : Binding) : Nat → Nat → Nat → Engine → Memory → Engine × Memory
  | 0, _, _, e, m => (e, m)
  | n + 1, ia, oa, e, m =>
    let r := blockOnce b ia oa e m
    blockLoop b n (ia + 8) (oa + 8) r.1 r.2

/-- The action of both: `cnt / 8` blocks, none for a call of no bytes; the result count is `cnt`
(43_block_transform_commands.md R188, R191, R192). -/
def transformAction (b : Binding) (s : State) : State × Word :=
  let d := s.eng.desc
  let r := blockLoop b (d.count.toNat / 8) d.inStart.toNat d.outStart.toNat s.eng s.mem
  ({ s with eng := r.1, mem := r.2 }, BitVec.ofInt 32 d.count)

/-- `XBLK` (43_block_transform_commands.md R187). -/
def execXblk (s : State) : Answer :=
  match s.eng.binding with
  | none => raise .errState s
  | some b =>
    commandFrame (xblkArgChecks s.eng.desc ++ transformBusChecks s.params.memSize s.eng.desc) (transformAction b) s

/-- `XFIN` (43_block_transform_commands.md R192). -/
def execXfin (s : State) : Answer :=
  match s.eng.binding with
  | none => raise .errState s
  | some b =>
    commandFrame (xfinArgChecks b s.eng.desc ++ transformBusChecks s.params.memSize s.eng.desc) (transformAction b) s

end Sys2Proof.Machine
end

