-- ==== Sys2Proof/Machine/Dispatch.lean ====
section
/-! DEFINITION. The meaning of each command, one arm per row of spec/opcode_table.json. -/

namespace Sys2Proof.Machine

open Sys2Proof

def exec (i : Instr) (s : State) : Host.Outcome State Fault Refusal :=
  match i with
  | .crenc mode macf => Sys2Proof.Machine.execCrenc mode macf s
  | .crdec mode macf => Sys2Proof.Machine.execCrdec mode macf s
  | .xblk => Sys2Proof.Machine.execXblk s
  | .xfin => Sys2Proof.Machine.execXfin s
  | .disp => Sys2Proof.Machine.execDisp s

end Sys2Proof.Machine
end

