-- ==== Sys2Proof/Machine/Flags.lean ====
section
/-! DEFINITION. The words in which `STATUS` and `CONFIG` are read, bit by bit (10_state.md R24, R26). The engine has no
condition codes and no other flag (10_state.md R24). -/

namespace Sys2Proof.Machine

open Sys2Proof

/-- `STATUS.CODE` (10_state.md R24, 60_exceptions.md R210). -/
def statusCode : StatusCode → BitVec 3
  | .ok => 0
  | .errCfg => 1
  | .errArg => 2
  | .errState => 3
  | .errCmd => 4
  | .errBus => 5

/-- `STATUS`: `CODE` in bits 2:0, bits 31:3 zero (10_state.md R24). -/
def statusWord (c : StatusCode) : Word := 0#29 ++ statusCode c

/-- The code of a direction (30_encoding.md R96). -/
def dirCode : Direction → BitVec 1
  | .encrypt => 0
  | .decrypt => 1

/-- The code of a mode (30_encoding.md R96). -/
def modeCode : Mode → BitVec 2
  | .ecb => 0
  | .ofb => 1
  | .cfb => 2

/-- `CONFIG`: zero, `MACF`, `MODE`, `DIR`, `BOUND` from bit 31 down (10_state.md R26). -/
def configWord : Option Binding → Word
  | none => 0
  | some b => 0#27 ++ BitVec.ofBool b.macf ++ modeCode b.mode ++ dirCode b.dir ++ 1#1

end Sys2Proof.Machine
end

