-- ==== Sys2Proof/Machine/HostBus.lean ====
section
/-! DEFINITION. What a host access does besides issuing a command: register reads and writes (10_state.md R21, R22), data
memory reads and writes (20_memory.md R73), the engine addressed (60_exceptions.md R225), the platform's reset
(70_reset_and_hazards.md R240, R241). -/

namespace Sys2Proof.Machine

open Sys2Proof

/-- A host read of register `n` (10_state.md R21, R22): `CMD` and every number above 16 read 0. -/
def Engine.readReg (n : Nat) (e : Engine) : Word :=
  match n with
  | 1 => statusWord e.status
  | 2 => e.result
  | 3 => configWord e.binding
  | 4 => e.desc.keyBase
  | 5 => e.desc.keyLen
  | 6 => e.desc.ivBase
  | 7 => e.desc.ivLen
  | 8 => e.desc.sboxBase
  | 9 => e.desc.sboxLen
  | 10 => e.desc.inBase
  | 11 => e.desc.inSize
  | 12 => e.desc.inOff
  | 13 => e.desc.inCnt
  | 14 => e.desc.outBase
  | 15 => e.desc.outSize
  | 16 => e.desc.outOff
  | _ => 0

/-- A host write of descriptor register `n` stores all 32 bits; any other number is ignored (10_state.md R22). -/
def Descriptors.write (n : Nat) (v : Word) (d : Descriptors) : Descriptors :=
  match n with
  | 4 => { d with keyBase := v }
  | 5 => { d with keyLen := v }
  | 6 => { d with ivBase := v }
  | 7 => { d with ivLen := v }
  | 8 => { d with sboxBase := v }
  | 9 => { d with sboxLen := v }
  | 10 => { d with inBase := v }
  | 11 => { d with inSize := v }
  | 12 => { d with inOff := v }
  | 13 => { d with inCnt := v }
  | 14 => { d with outBase := v }
  | 15 => { d with outSize := v }
  | 16 => { d with outOff := v }
  | _ => d

/-- A host write of register `n`, other than `CMD`, to the engine addressed (10_state.md R22). -/
def State.hostWriteReg (n : Nat) (v : Word) (s : State) : State :=
  { s with eng := { s.eng with desc := s.eng.desc.write n v } }

/-- A reply for the host. -/
def State.reply (r : HostReply) (s : State) : State := { s with replies := r :: s.replies }

/-- A host write of the data memory of the engine addressed (20_memory.md R60, R73). -/
def hostWriteMem (addr : Nat) (bytes : List Byte) (s : State) : Answer :=
  if rangeExists s.params.memSize addr bytes.length then .next { s with mem := Memory.writeBytes s.mem addr bytes }
  else .fault (.addressDoesNotExist addr bytes.length)

/-- A host read of the data memory of the engine addressed (20_memory.md R60, R73). -/
def hostReadMem (addr n : Nat) (s : State) : Answer :=
  if rangeExists s.params.memSize addr n then .next (s.reply (.mem addr (Memory.readBytes s.mem addr n).toList))
  else .fault (.addressDoesNotExist addr n)

/-- From now on the host's accesses address engine `n` and the data memory that it is given (60_exceptions.md R225, 20_memory.md
R60). No engine and no data memory changes. -/
def selectEngine (n : Nat) (s : State) : Answer :=
  if n = s.engineId then .next s
  else
    match findNumbered n s.peers, s.memoryAt (s.params.memoryOf n) with
    | some e, some m =>
      .next { s with
        engineId := n
        eng := e
        peers := replaceNumbered n (s.engineId, s.eng) s.peers
        mem := m
        otherMems := s.memoriesBeside (s.params.memoryOf n) }
    | _, _ => .fault (.engineDoesNotExist n)

/-- Engine number `id` after the platform's reset number `draw`: what the host sees is 0 and the private state is
unspecified (70_reset_and_hazards.md R241, R252; log entry 3). -/
def Engine.afterReset (draw id : Nat) : Engine :=
  { Engine.reset with
    k := tabulate fun i => Config.resetWord draw id i.val
    n1 := Config.resetWord draw id 8
    n2 := Config.resetWord draw id 9
    t := tabulate fun i => tabulate fun b => Config.resetByte draw id (256 * i.val + b.val)
    fb := tabulate fun i => Config.resetByte draw id (1024 + i.val) }

/-- The platform's reset (70_reset_and_hazards.md R240, R241): every engine of the system, and every data memory
holds `M0`. The host's own accesses and replies are not the machine's and stay. -/
def State.platformReset (s : State) : State :=
  { s with
    eng := Engine.afterReset s.resets s.engineId
    peers := s.peers.map fun p => (p.1, Engine.afterReset s.resets p.1)
    mem := s.params.m0
    otherMems := s.otherMems.map fun p => (p.1, s.params.m0)
    resets := s.resets + 1 }

end Sys2Proof.Machine
end

