-- ==== Sys2Proof/Machine/Command.lean ====
section
/-! DEFINITION. A write of `CMD` (30_encoding.md R90, R94; 43_block_transform_commands.md R180) and every other host access,
each one atomic step (70_reset_and_hazards.md R249); and how a command word is put before the machine. -/

namespace Sys2Proof.Machine

open Sys2Proof

/-- The command word `w` is written to `CMD`: an illegal word ends with `ERR_CMD` and changes nothing else. -/
def issue (w : Word) (s : State) : Answer :=
  match decodeWord w with
  | .command i => exec i s
  | .illegal _ => raise .errCmd s

/-- A host write of register `n` (30_encoding.md R90, 10_state.md R22). -/
def hostWrite (n : Nat) (v : Word) (s : State) : Answer :=
  if n = 0 then issue v s else .next (s.hostWriteReg n v)

/-- One host access. -/
def hostStep (op : HostOp) (s : State) : Answer :=
  match op with
  | .writeReg n v => hostWrite n v s
  | .readReg n => .next (s.reply (.reg n (s.eng.readReg n)))
  | .writeMem addr bytes => hostWriteMem addr bytes s
  | .readMem addr n => hostReadMem addr n s
  | .select n => selectEngine n s
  | .reset => .next s.platformReset

/-- The next host access, taken from those that wait; while none waits the engine is idle and all state is retained
(60_exceptions.md R222). -/
def nextAccess (s : State) : Answer :=
  match s.inbox with
  | [] => .next s
  | op :: rest => hostStep op { s with inbox := rest }

/-- The machine with a write of command word `w`, of `nbits` bits, as the next host access. -/
def State.offerWord (nbits w : Nat) (s : State) : State :=
  { s with inbox := .writeReg 0 (BitVec.ofNat 32 (w % 2 ^ nbits)) :: s.inbox }

end Sys2Proof.Machine
end

