-- ==== Sys2Proof/Machine/Step.lean ====
section
/-! DEFINITION. One step of the machine: one host access, a whole command among them (70_reset_and_hazards.md R249). -/

namespace Sys2Proof.Machine

open Sys2Proof

/-- One step. -/
def step (s : State) : Host.Outcome State Fault Refusal := nextAccess s

/-- The machine that takes the instruction word `w` of `nbits` bits next: there is no fetch (10_state.md R32), a command
comes as the host's write of `CMD`. -/
def State.withFetchWord (s : State) (nbits w : Nat) : State := s.offerWord nbits w

end Sys2Proof.Machine
end

