-- ==== Sys2Proof/Safety.lean ====
section
/-! DEFINITION. The terms that claims are stated in: the invariant of the machine, the conditions of 43_block_transform_commands.md
under which a command runs (written from the rules, with the integer value of each operand, and not from the model's checks),
the state machine of 42_mode_engine.md R170, what the host can see, and commands one after the other. -/

namespace Sys2Proof

/-- The two transform commands. -/
def Instr.isTransform (i : Instr) : Prop := i = .xblk ∨ i = .xfin

end Sys2Proof

namespace Sys2Proof.Machine

open Sys2Proof

/-- The numbers of the engines, the one addressed first. -/
def State.engineIds (s : State) : List Nat := s.engineId :: s.peers.map Prod.fst

/-- The data memories, that of the engine addressed first. -/
def State.memories (s : State) : List Memory := s.mem :: s.otherMems.map Prod.snd

/-- The numbers of the data memories, in the same order. -/
def State.memoryIds (s : State) : List Nat := s.memoryId :: s.otherMems.map Prod.fst

/-- What holds at reset and at every later moment: legal parameters (00_scope.md R7), data memories in canonical form that
list no address at or above `MEMSIZE` (20_memory.md R60), `NINST` engines with the numbers below `NINST`, each once, and
exactly the data memories that they are given, each once (60_exceptions.md R225). -/
structure State.Inv (s : State) : Prop where
  paramsLegal      : s.params.wf = true
  memoryCanonical  : ∀ m ∈ s.memories, Memory.wf m = true
  memoryInside     : ∀ m ∈ s.memories, Memory.within s.params.memSize m = true
  enginesDistinct  : s.engineIds.Nodup
  enginesBelow     : ∀ n ∈ s.engineIds, n < s.params.nInst
  enginesAll       : s.engineIds.length = s.params.nInst
  memoriesDistinct : s.memoryIds.Nodup
  memoriesGiven    : ∀ m, m ∈ s.memoryIds ↔ m ∈ s.params.memoryIds

/-- A run in which every command so far ended with `OK` is one whose every state has this (60_exceptions.md R217: the
hardware keeps no record of an earlier failure). -/
def State.lastCommandOk (s : State) : Prop := s.eng.status = .ok

/-- The lengths that 43_block_transform_commands.md R183 (checks 2 to 4) asks for. -/
def Descriptors.materialLengthsLegal (d : Descriptors) : Prop :=
  d.keyLen.toNat = 32 ∧ d.sboxLen.toNat = 64 ∧ d.ivLen.toNat = 8

/-- The three material ranges lie in the memory (43_block_transform_commands.md R184). -/
def Descriptors.materialExists (d : Descriptors) (memSize : Nat) : Prop :=
  d.keyBase.toNat + 32 ≤ memSize ∧ d.sboxBase.toNat + 64 ≤ memSize ∧ d.ivBase.toNat + 8 ≤ memSize

/-- None of the six conditions of 43_block_transform_commands.md R189 holds. -/
def Descriptors.xblkArgsLegal (d : Descriptors) : Prop :=
  0 < d.inCnt.toInt ∧ d.inCnt.toInt % 8 = 0 ∧ 0 ≤ d.inOff.toInt ∧ 0 ≤ d.outOff.toInt ∧
    d.inOff.toInt + d.inCnt.toInt ≤ d.inSize.toNat ∧ d.outOff.toInt + d.inCnt.toInt ≤ d.outSize.toNat

/-- None of the seven conditions of 43_block_transform_commands.md R193 holds. -/
def Descriptors.xfinArgsLegal (d : Descriptors) (b : Binding) : Prop :=
  0 ≤ d.inCnt.toInt ∧ 0 ≤ d.inOff.toInt ∧ d.inOff.toInt + d.inCnt.toInt ≤ d.inSize.toNat ∧
    d.inCnt.toInt % 8 = 0 ∧ (d.inCnt.toInt = 0 → b.mode = .ecb ∨ b.macf = true) ∧
    (0 < d.inCnt.toInt → 0 ≤ d.outOff.toInt ∧ d.outOff.toInt + d.inCnt.toInt ≤ d.outSize.toNat)

/-- Neither condition of 43_block_transform_commands.md R190 holds. -/
def Descriptors.rangesExist (d : Descriptors) (memSize : Nat) : Prop :=
  d.inBase.toNat + d.inOff.toInt + d.inCnt.toInt ≤ memSize ∧
    d.outBase.toNat + d.outOff.toInt + d.inCnt.toInt ≤ memSize

/-- Entry `e` of group `g` in the S-box material at `SBOX_BASE`, by the layout of 40_key_schedule_and_sbox.md R122. -/
def State.materialEntry (s : State) (g e : Nat) : Nat :=
  let byte := (Memory.read s.mem (s.eng.desc.sboxBase.toNat + 8 * g + e / 2)).toNat
  match s.params.nibbleOrder with
  | .lowFirst => if e % 2 = 0 then byte % 16 else byte / 16
  | .highFirst => if e % 2 = 0 then byte / 16 else byte % 16

/-- The mode engine as a state machine (42_mode_engine.md R170): the output block and the next `FB`. -/
def modeStep (b : Binding) (k : KeyWords) (t : Tables) (x fb : Block) : Block × Block :=
  match b.mode, b.dir with
  | .ecb, .encrypt => (fenc k t x, fb)
  | .ecb, .decrypt => (fdec k t x, fb)
  | .ofb, _ => (xorBlock x (fenc k t (advance fb)), advance fb)
  | .cfb, .encrypt => (xorBlock x fb, fenc k t (xorBlock x fb))
  | .cfb, .decrypt => (xorBlock x fb, fenc k t x)

/-- Two rounds of 41_round_function_and_feistel_core.md R147: `n2 ^= F(n1 +32 K[i]); n1 ^= F(n2 +32 K[j])`. -/
def roundPair (k : KeyWords) (t : Tables) (i j : Fin 8) (h : Halves) : Halves :=
  ⟨h.n1 ^^^ roundF t ((h.n2 ^^^ roundF t (h.n1 + k[i])) + k[j]), h.n2 ^^^ roundF t (h.n1 + k[i])⟩

/-- Eight rounds with the key words in ascending order (41_round_function_and_feistel_core.md R147). -/
def ascendingPass (k : KeyWords) (t : Tables) (h : Halves) : Halves :=
  roundPair k t 6 7 (roundPair k t 4 5 (roundPair k t 2 3 (roundPair k t 0 1 h)))

/-- Eight rounds with the key words in descending order (41_round_function_and_feistel_core.md R147). -/
def descendingPass (k : KeyWords) (t : Tables) (h : Halves) : Halves :=
  roundPair k t 1 0 (roundPair k t 3 2 (roundPair k t 5 4 (roundPair k t 7 6 h)))

/-- The command that the next access issues, if it is the write of a legal word to `CMD`. -/
def State.nextCommand (s : State) : Option Instr :=
  match s.inbox with
  | .writeReg n w :: _ => if n = 0 then (decodeWord w).instr? else none
  | _ => none

/-- The next access runs a transform command on a bound engine: the one access whose outcome may depend on `K`, `T`, `FB`. -/
def State.runsTransform (s : State) : Prop :=
  s.eng.binding ≠ none ∧ (s.nextCommand = some .xblk ∨ s.nextCommand = some .xfin)

/-- An engine as the host sees it: without `K`, `T`, `FB`, `n1`, `n2` (10_state.md R20). -/
def Engine.visible (e : Engine) : Engine :=
  { e with
    k := Vector.replicate 8 0
    t := Vector.replicate 4 (Vector.replicate 256 0)
    fb := Vector.replicate 8 0
    n1 := 0
    n2 := 0 }

/-- The machine as the host sees it. -/
def State.visible (s : State) : State :=
  { s with eng := s.eng.visible, peers := s.peers.map fun p => (p.1, p.2.visible) }

/-- An answer as the host sees it. -/
def visibleAnswer : Answer → Answer
  | .next s => .next s.visible
  | .fault f => .fault f
  | .refused r => .refused r

/-- `n` steps, if each of them answers a next state. -/
def runSteps : Nat → State → Option State
  | 0, s => some s
  | n + 1, s =>
    match step s with
    | .next t => runSteps n t
    | _ => none

/-- The machine with other descriptor registers, as the host's writes leave them. -/
def State.withDesc (d : Descriptors) (s : State) : State := { s with eng := { s.eng with desc := d } }

/-- A transform done in pieces: each piece is a command and its count, and takes the bytes after those of the piece before it
(both base registers move on by the count). It answers the last state if every piece ended with `OK`. -/
def runPieces : List (Instr × Nat) → State → Option State
  | [], s => some s
  | (i, n) :: rest, s =>
    match exec i (s.withDesc { s.eng.desc with inCnt := BitVec.ofNat 32 n }) with
    | .next u =>
      if u.eng.status = .ok then
        runPieces rest (u.withDesc
          { u.eng.desc with
            inBase := u.eng.desc.inBase + BitVec.ofNat 32 n
            outBase := u.eng.desc.outBase + BitVec.ofNat 32 n })
      else none
    | _ => none

/-- The output range is the input range or shares no byte with it. -/
def Descriptors.inPlaceOrDisjoint (d : Descriptors) : Prop :=
  d.outStart = d.inStart ∨ d.outStart + d.inCnt.toInt ≤ d.inStart ∨ d.inStart + d.inCnt.toInt ≤ d.outStart

/-- The output range shares no byte with the key, S-box or IV range. -/
def Descriptors.outputClearOfMaterial (d : Descriptors) : Prop :=
  (d.outStart + d.inCnt.toInt ≤ d.keyBase.toNat ∨ d.keyBase.toNat + 32 ≤ d.outStart) ∧
    (d.outStart + d.inCnt.toInt ≤ d.sboxBase.toNat ∨ d.sboxBase.toNat + 64 ≤ d.outStart) ∧
    (d.outStart + d.inCnt.toInt ≤ d.ivBase.toNat ∨ d.ivBase.toNat + 8 ≤ d.outStart)

end Sys2Proof.Machine
end

