-- ==== Sys2Proof/Certificates/Slice0/Obligations.lean ====
section
/-! DEFINITION. The statements about the machine, each a `Prop`; what each says in words, its tier and the rules it rests on
stand in OBLIGATIONS.json. -/

open Sys2Proof Sys2Proof.Machine

/-! ### The command word (30_encoding.md) -/

/-- R92: a word selects the command of a row exactly when its masked value is the row's match value; a word that no row
matches is illegal. -/
def Obligations.DecodeFollowsOpcodeMap : Prop :=
  ∀ w : Word,
    (decodeWord w = .command (.crenc (w.extractLsb' 8 2) (w.getLsbD 10)) ↔ w &&& 0xFFFFF8FF#32 = 0x00000001#32) ∧
    (decodeWord w = .command (.crdec (w.extractLsb' 8 2) (w.getLsbD 10)) ↔ w &&& 0xFFFFF8FF#32 = 0x00000002#32) ∧
    (decodeWord w = .command .xblk ↔ w &&& 0xFFFFFFFF#32 = 0x00000010#32) ∧
    (decodeWord w = .command .xfin ↔ w &&& 0xFFFFFFFF#32 = 0x00000011#32) ∧
    (decodeWord w = .command .disp ↔ w &&& 0xFFFFFFFF#32 = 0x0000001F#32) ∧
    ((∃ why, decodeWord w = .illegal why) ↔
      ¬ (w &&& 0xFFFFF8FF#32 = 0x00000001#32 ∨ w &&& 0xFFFFF8FF#32 = 0x00000002#32 ∨
        w &&& 0xFFFFFFFF#32 = 0x00000010#32 ∨ w &&& 0xFFFFFFFF#32 = 0x00000011#32 ∨
        w &&& 0xFFFFFFFF#32 = 0x0000001F#32))

/-- R90 to R94: decoding an encoded command gives it back, and a word that decodes to a command is its encoding. -/
def Obligations.DecodeAndEncodeAgree : Prop :=
  ∀ (w : Word) (i : Instr), decodeWord w = .command i ↔ encode i = w

/-- R99: the worked encodings. That an illegal word is rejected for one of two reasons, and for which, is the model's choice
(log entry 18): R99 says only that it is illegal. -/
def Obligations.WorkedEncodingsDecode : Prop :=
  decodeWord 0x00000001#32 = .command (.crenc 0 false) ∧
  decodeWord 0x00000101#32 = .command (.crenc 1 false) ∧
  decodeWord 0x00000201#32 = .command (.crenc 2 false) ∧
  decodeWord 0x00000301#32 = .command (.crenc 3 false) ∧
  decodeWord 0x00000601#32 = .command (.crenc 2 true) ∧
  decodeWord 0x00000002#32 = .command (.crdec 0 false) ∧
  decodeWord 0x00000502#32 = .command (.crdec 1 true) ∧
  decodeWord 0x00000010#32 = .command .xblk ∧
  decodeWord 0x00000011#32 = .command .xfin ∧
  decodeWord 0x0000001F#32 = .command .disp ∧
  decodeWord 0x00000000#32 = .illegal .unknownOpcode ∧
  decodeWord 0x00000003#32 = .illegal .unknownOpcode ∧
  decodeWord 0x00000110#32 = .illegal .reservedBits ∧
  decodeWord 0x00000801#32 = .illegal .reservedBits ∧
  decodeWord 0x80000010#32 = .illegal .reservedBits

/-! ### One step: a whole command or a host access -/

/-- R90, R180: the write of a legal word to `CMD` runs the command it encodes, at the state without that access; the same
for a word placed as the next instruction. -/
def Obligations.StepRunsDecodedCommand : Prop :=
  (∀ (s : State) (w : Word) (i : Instr) (rest : List HostOp),
    s.inbox = .writeReg 0 w :: rest → decodeWord w = .command i → step s = exec i { s with inbox := rest }) ∧
  (∀ (s : State) (w : Word) (i : Instr), decodeWord w = .command i → step (s.withFetchWord 32 w.toNat) = exec i s)

/-- R94: the write of a word that no row of the opcode map matches ends with `ERR_CMD`, `RESULT = 0`, and changes nothing
else. -/
def Obligations.IllegalWordEndsWithErrCmd : Prop :=
  ∀ (s : State) (w : Word) (rest : List HostOp),
    s.inbox = .writeReg 0 w :: rest →
    w &&& 0xFFFFF8FF#32 ≠ 0x00000001#32 → w &&& 0xFFFFF8FF#32 ≠ 0x00000002#32 →
    w ≠ 0x00000010#32 → w ≠ 0x00000011#32 → w ≠ 0x0000001F#32 →
    step s = .next { s with inbox := rest, eng := { s.eng with status := .errCmd, result := 0 } }

/-- R222: while no access waits the engine is idle and all state is retained. -/
def Obligations.IdleStepRetainsState : Prop := ∀ s : State, s.inbox = [] → step s = .next s

/-- R22: a host write of a register other than `CMD` stores all 32 bits of a descriptor register and changes nothing else;
a read-only register and a number above 16 ignore it; `CMD` and every number above 16 read 0; a read of any register brings
its value back and changes nothing; and no command writes a descriptor register. -/
def Obligations.HostRegisterAccess : Prop :=
  (∀ (s : State) (n : Nat) (v : Word) (rest : List HostOp),
    s.inbox = .writeReg n v :: rest → n ≠ 0 →
    ∃ t, step s = .next t ∧
      t = { s with inbox := rest, eng := { s.eng with desc := t.eng.desc } } ∧
      ∀ m, t.eng.readReg m = if m = n ∧ 4 ≤ n ∧ n ≤ 16 then v else s.eng.readReg m) ∧
  (∀ e : Engine, e.readReg 0 = 0 ∧ ∀ n, 16 < n → e.readReg n = 0) ∧
  (∀ (s : State) (n : Nat) (rest : List HostOp), s.inbox = .readReg n :: rest →
    step s = .next { s with inbox := rest, replies := .reg n (s.eng.readReg n) :: s.replies }) ∧
  (∀ (i : Instr) (s t : State), exec i s = .next t → t.eng.desc = s.eng.desc)

/-- R24, R26, R37 (I-a, I-b): the bits of `STATUS` and `CONFIG` as the host reads them. -/
def Obligations.StatusAndConfigWords : Prop :=
  ∀ e : Engine,
    (∀ n, 3 ≤ n → (e.readReg 1).getLsbD n = false) ∧
    (e.readReg 1).toNat
      = (match e.status with | .ok => 0 | .errCfg => 1 | .errArg => 2 | .errState => 3 | .errCmd => 4 | .errBus => 5) ∧
    (∀ n, 5 ≤ n → (e.readReg 3).getLsbD n = false) ∧
    (e.readReg 3).extractLsb' 2 2 ≠ 3#2 ∧
    ((e.readReg 3).getLsbD 0 = e.binding.isSome) ∧
    (e.binding = none → e.readReg 3 = 0) ∧
    (∀ b, e.binding = some b →
      (e.readReg 3).getLsbD 1 = decide (b.dir = .decrypt) ∧ (e.readReg 3).getLsbD 4 = b.macf ∧
      ((e.readReg 3).extractLsb' 2 2).toNat = (match b.mode with | .ecb => 0 | .ofb => 1 | .cfb => 2))

/-- R61, R62, R73: bytes the host writes to data memory are the bytes it reads back, and no other byte and no engine
changes. -/
def Obligations.HostMemoryReadsBackWhatWasWritten : Prop :=
  ∀ (s : State) (addr : Nat) (bytes : List Byte) (rest : List HostOp),
    s.inbox = .writeMem addr bytes :: .readMem addr bytes.length :: rest →
    Memory.wf s.mem = true → addr + bytes.length ≤ s.params.memSize →
    ∃ u v, step s = .next u ∧ step u = .next v ∧
      v = { s with mem := u.mem, inbox := rest, replies := .mem addr bytes :: s.replies } ∧
      ∀ a, (a < addr ∨ addr + bytes.length ≤ a) → Memory.read v.mem a = Memory.read s.mem a

/-! ### Reset -/

/-- R36: after reset every host-visible register is 0, the engine is unbound and the data memory holds `M0`. -/
def Obligations.ResetRegistersAreZero : Prop :=
  (∀ n, State.reset.eng.readReg n = 0) ∧ State.reset.eng.binding = none ∧ State.reset.eng.status = .ok ∧
    State.reset.mem = State.reset.params.m0

/-- R241: the platform's reset leaves every register of every engine 0, every data memory at `M0`, and the parameters and the
numbers of the engines and of the memories as they are. That it reaches every engine and every data memory of the system is
the model's choice (log entry 4). -/
def Obligations.PlatformResetClearsRegisters : Prop :=
  ∀ (s : State) (rest : List HostOp), s.inbox = .reset :: rest →
    ∃ t, step s = .next t ∧ t.mem = s.params.m0 ∧ t.params = s.params ∧ t.inbox = rest ∧
      (∀ m, t.memoryAt m = (s.memoryAt m).map fun _ => s.params.m0) ∧
      ∀ n, (t.engineAt n).isSome = (s.engineAt n).isSome ∧
        ∀ e, t.engineAt n = some e → e.binding = none ∧ e.status = .ok ∧ ∀ r, e.readReg r = 0

/-! ### The invariant -/

/-- The invariant holds of the machine right after reset, whose `MEMSIZE` and `M0` are the model's choice (log entry 1). -/
def Obligations.ResetMeetsInvariant : Prop := State.reset.Inv

/-- Every step keeps the invariant. -/
def Obligations.StepKeepsInvariant : Prop := ∀ s t : State, s.Inv → step s = .next t → t.Inv

/-- R12 (5), R215: under the invariant nothing stops the machine but a host access to an address or an engine that does not
exist, and that always does. That such an access is a fault is the model's choice (log entry 8). -/
def Obligations.OnlyMissingAddressOrEngineStops : Prop :=
  ∀ s : State, s.Inv →
    ((∀ op rest, s.inbox = op :: rest → op.wf s.params = true) ↔ ∃ t, step s = .next t) ∧
    (∀ r, step s ≠ .refused r)

/-! ### Errors (60_exceptions.md) -/

/-- R214: a command that ends with a code other than `OK` changes `STATUS` and `RESULT` and nothing else. -/
def Obligations.FailedCommandChangesNothing : Prop :=
  ∀ (s t : State) (w : Word) (rest : List HostOp),
    s.inbox = .writeReg 0 w :: rest → step s = .next t → t.eng.status ≠ .ok →
    t = { s with inbox := rest, eng := { s.eng with status := t.eng.status, result := 0 } }

/-- R216: the code of a command depends on the registers, on `CONFIG` and on the size of the memory alone, so that a
rejected command issued again fails again, with the same code and the same state. -/
def Obligations.RejectedCommandFailsAgain : Prop :=
  (∀ (i : Instr) (s s' t : State),
    s'.eng.desc = s.eng.desc → s'.eng.binding = s.eng.binding → s'.params.memSize = s.params.memSize →
    exec i s = .next t → ∃ t', exec i s' = .next t' ∧ t'.eng.status = t.eng.status) ∧
  (∀ (i : Instr) (s t : State), exec i s = .next t → t.eng.status ≠ .ok → exec i t = .next t)

/-- R24, R199 (b): no command reads `STATUS` or `RESULT`, so that after a rejected command everything goes on as if it had
never been issued. -/
def Obligations.NoCommandReadsStatus : Prop :=
  ∀ (i : Instr) (s : State) (code : StatusCode) (result : Word),
    exec i { s with eng := { s.eng with status := code, result := result } } = exec i s

/-- R210: which command can end with which code. -/
def Obligations.StatusCodesOfEachCommand : Prop :=
  (∀ (i : Instr) (s t : State), exec i s = .next t →
    t.eng.status ≠ .errCmd ∧
    (t.eng.status = .errCfg → ∃ mode macf, i = .crenc mode macf ∨ i = .crdec mode macf) ∧
    (t.eng.status = .errArg → i.isTransform ∧ s.eng.binding ≠ none) ∧
    (t.eng.status = .errState → i.isTransform ∧ s.eng.binding = none) ∧
    (t.eng.status = .errBus → i ≠ .disp)) ∧
  (∀ (s t : State) (w : Word) (rest : List HostOp), s.inbox = .writeReg 0 w :: rest → step s = .next t →
    (t.eng.status = .errCmd ↔ (decodeWord w).instr? = none))

/-- R183, R184: which code `CRENC` and `CRDEC` end with, for every mode field, lengths and addresses. -/
def Obligations.CreateStatus : Prop :=
  ∀ (mode : BitVec 2) (macf : Bool) (s : State) (i : Instr),
    i = .crenc mode macf ∨ i = .crdec mode macf →
    ∃ t, exec i s = .next t ∧
      (mode = 3#2 ∨ ¬ s.eng.desc.materialLengthsLegal → t.eng.status = .errCfg) ∧
      (mode ≠ 3#2 → s.eng.desc.materialLengthsLegal →
        ¬ s.eng.desc.materialExists s.params.memSize → t.eng.status = .errBus) ∧
      (mode ≠ 3#2 → s.eng.desc.materialLengthsLegal →
        s.eng.desc.materialExists s.params.memSize → t.eng.status = .ok)

/-- R189, R190: which code `XBLK` ends with. -/
def Obligations.XblkStatus : Prop :=
  ∀ s : State, ∃ t, exec .xblk s = .next t ∧
    (s.eng.binding = none → t.eng.status = .errState) ∧
    (s.eng.binding ≠ none → ¬ s.eng.desc.xblkArgsLegal → t.eng.status = .errArg) ∧
    (s.eng.binding ≠ none → s.eng.desc.xblkArgsLegal →
      ¬ s.eng.desc.rangesExist s.params.memSize → t.eng.status = .errBus) ∧
    (s.eng.binding ≠ none → s.eng.desc.xblkArgsLegal →
      s.eng.desc.rangesExist s.params.memSize → t.eng.status = .ok)

/-- R193, R190: which code `XFIN` ends with. -/
def Obligations.XfinStatus : Prop :=
  ∀ s : State, ∃ t, exec .xfin s = .next t ∧
    (s.eng.binding = none → t.eng.status = .errState) ∧
    ∀ b, s.eng.binding = some b →
      (¬ s.eng.desc.xfinArgsLegal b → t.eng.status = .errArg) ∧
      (s.eng.desc.xfinArgsLegal b → 0 < s.eng.desc.inCnt.toInt →
        ¬ s.eng.desc.rangesExist s.params.memSize → t.eng.status = .errBus) ∧
      (s.eng.desc.xfinArgsLegal b →
        (0 < s.eng.desc.inCnt.toInt → s.eng.desc.rangesExist s.params.memSize) → t.eng.status = .ok)

/-- R198: while unbound `XBLK` and `XFIN` end with `ERR_STATE` whatever the descriptor registers hold, and change nothing
else; `CRENC`, `CRDEC` and `DISP` never end with `ERR_STATE`. -/
def Obligations.UnboundTransformFails : Prop :=
  (∀ (s : State) (i : Instr), i.isTransform → s.eng.binding = none →
    exec i s = .next { s with eng := { s.eng with status := .errState, result := 0 } }) ∧
  (∀ (s : State) (i : Instr), ¬ i.isTransform → ∃ t, exec i s = .next t ∧ t.eng.status ≠ .errState)

/-! ### Key schedule and tables (40_key_schedule_and_sbox.md) -/

/-- R121: the key schedule is a bijection; the key of zeros and the key of `0xFF` bytes. -/
def Obligations.KeyScheduleIsBijection : Prop :=
  Function.Bijective keySched ∧ keySched (Vector.replicate 32 0#8) = Vector.replicate 8 0#32 ∧
    keySched (Vector.replicate 32 0xFF#8) = Vector.replicate 8 0xFFFFFFFF#32

/-- R124 (b): a table is a bijection on bytes exactly when both groups of its pair are bijections on nibbles. -/
def Obligations.TableBijectiveIffGroupsAre : Prop :=
  ∀ (pairing : Vector (Fin 8 × Fin 8) 4) (groups : Groups) (i : Fin 4),
    Function.Bijective (fun b : Byte => lookup (sboxBuild pairing groups)[i] b) ↔
      Function.Bijective (fun e : Nibble => (groups[pairing[i].1])[e.toNat]'(by have := e.isLt; omega)) ∧
      Function.Bijective (fun e : Nibble => (groups[pairing[i].2])[e.toNat]'(by have := e.isLt; omega))

/-- R124 (d): the round function through the tables is the one that applies the eight nibble groups: nibble `j` of the word
goes through the low (`j` even) or high (`j` odd) group of pair `j / 2`, then the word is rotated left by 11. -/
def Obligations.RoundFunctionIsNibblewise : Prop :=
  ∀ (pairing : Vector (Fin 8 × Fin 8) 4) (groups : Groups) (x : Word) (j : Fin 8) (b : Fin 4),
    (roundF (sboxBuild pairing groups) x).getLsbD ((4 * j.val + b.val + 11) % 32)
      = ((groups[if j.val % 2 = 0 then (pairing[j.val / 2]'(by omega)).2 else (pairing[j.val / 2]'(by omega)).1])[
          x.toNat / 2 ^ (4 * j.val) % 16]'(by omega)).getLsbD b.val

/-! ### The round function and the network (41_round_function_and_feistel_core.md) -/

/-- R140: byte `j` of the word is replaced by `T[j]` of it in its place, then the word is rotated left by 11, circularly. -/
def Obligations.RoundFunctionBits : Prop :=
  ∀ (t : Tables) (x : Word) (j : Fin 4) (b : Fin 8),
    (roundF t x).getLsbD ((8 * j.val + b.val + 11) % 32)
      = ((t[j])[x.toNat / 2 ^ (8 * j.val) % 256]'(by omega)).getLsbD b.val

/-- R142: the two index sequences, and that one is the other reversed. -/
def Obligations.KeyIndexSequences : Prop :=
  (List.range 32).map encIdx
    = [0, 1, 2, 3, 4, 5, 6, 7, 0, 1, 2, 3, 4, 5, 6, 7, 0, 1, 2, 3, 4, 5, 6, 7, 7, 6, 5, 4, 3, 2, 1, 0] ∧
  (List.range 32).map decIdx
    = [0, 1, 2, 3, 4, 5, 6, 7, 7, 6, 5, 4, 3, 2, 1, 0, 7, 6, 5, 4, 3, 2, 1, 0, 7, 6, 5, 4, 3, 2, 1, 0] ∧
  ∀ r, r < 32 → decIdx r = encIdx (31 - r)

/-- R143: an even round updates `n2`, an odd round `n1`, and each round is its own inverse. -/
def Obligations.RoundUpdatesOneHalf : Prop :=
  ∀ (k : KeyWords) (t : Tables) (r : Nat) (idx : Fin 8) (h : Halves),
    (r % 2 = 0 → roundStep k t r idx h = ⟨h.n1, h.n2 ^^^ roundF t (BitVec.ofNat 32 (h.n1.toNat + k[idx].toNat))⟩) ∧
    (r % 2 ≠ 0 → roundStep k t r idx h = ⟨h.n1 ^^^ roundF t (BitVec.ofNat 32 (h.n2.toNat + k[idx].toNat)), h.n2⟩) ∧
    roundStep k t r idx (roundStep k t r idx h) = h

/-- R144, R145: the words of a block on input, and the bytes of a block on output, `n2` first. -/
def Obligations.BlockAssembly : Prop :=
  (∀ b : Block,
    (loadBlock b).n1.toNat = b[0].toNat + 2 ^ 8 * b[1].toNat + 2 ^ 16 * b[2].toNat + 2 ^ 24 * b[3].toNat ∧
    (loadBlock b).n2.toNat = b[4].toNat + 2 ^ 8 * b[5].toNat + 2 ^ 16 * b[6].toNat + 2 ^ 24 * b[7].toNat) ∧
  (∀ (h : Halves) (i : Fin 4),
    ((storeBlock h)[i.val]'(by omega)).toNat = h.n2.toNat / 2 ^ (8 * i.val) % 256 ∧
    ((storeBlock h)[i.val + 4]'(by omega)).toNat = h.n1.toNat / 2 ^ (8 * i.val) % 256)

/-- R147: `FENC` written out, in pairs of updates `n2 ^= F(n1 +32 K[i]); n1 ^= F(n2 +32 K[j])`: three ascending passes, then a
descending one. -/
def Obligations.FencWrittenOut : Prop :=
  ∀ (k : KeyWords) (t : Tables) (b : Block),
    fenc k t b
      = storeBlock (descendingPass k t (ascendingPass k t (ascendingPass k t (ascendingPass k t (loadBlock b)))))

/-- R149: for every `K`, every `T` and every block, each network undoes the other. -/
def Obligations.FdecInvertsFenc : Prop :=
  ∀ (k : KeyWords) (t : Tables) (b : Block), fdec k t (fenc k t b) = b ∧ fenc k t (fdec k t b) = b

/-- R148: when all eight key words are equal `FDEC = FENC`, and `FENC` is an involution. -/
def Obligations.EqualKeyWordsMakeFencInvolution : Prop :=
  ∀ (k : KeyWords) (t : Tables), (∀ i j : Fin 8, k[i] = k[j]) →
    ∀ b : Block, fdec k t b = fenc k t b ∧ fenc k t (fenc k t b) = b

/-! ### The mode engine (42_mode_engine.md) -/

/-- R163, R164: the register advance, its carry form, and that the high word is never 0 after it. -/
def Obligations.OfbAdvance : Prop :=
  (∀ e : Engine, e.ofbAdv = { e with fb := e.ofbAdv.fb }) ∧
  ∀ e : Engine,
    let lo := (loWord e.fb).toNat
    let hi := (hiWord e.fb).toNat
    let lo' := (loWord e.ofbAdv.fb).toNat
    let hi' := (hiWord e.ofbAdv.fb).toNat
    let sum := hi + 0x01010104
    lo' = (lo + 0x01010101) % 2 ^ 32 ∧
    hi' = (hi + 0x01010104 - 1) % 0xFFFFFFFF + 1 ∧
    (sum ≤ 0xFFFFFFFF → hi' = sum) ∧ (2 ^ 32 ≤ sum → hi' = sum - 2 ^ 32 + 1) ∧
    1 ≤ hi' ∧ hi' ≤ 0xFFFFFFFF

/-- R161, R162, R165, R167, R168: the mode engine is the state machine of the table in R170, and a block changes nothing of
the engine but `FB` and the working words. -/
def Obligations.ModeStateMachine : Prop :=
  ∀ (b : Binding) (x : Block) (e : Engine),
    (e.blockStep b x).2 = (modeStep b e.k e.t x e.fb).1 ∧
    (e.blockStep b x).1
      = { e with
          fb := (modeStep b e.k e.t x e.fb).2
          n1 := (e.blockStep b x).1.n1
          n2 := (e.blockStep b x).1.n2 }

/-- R149, R166 (b), R169 (a): with the same key words, tables and register, the decryptor's block step gives the encryptor's
input back, and both registers agree afterwards, in every mode. -/
def Obligations.BlockStepRoundTrip : Prop :=
  ∀ (m : Mode) (macf macf' : Bool) (e e' : Engine) (x : Block),
    e'.k = e.k → e'.t = e.t → e'.fb = e.fb →
    let r := e.blockStep ⟨.encrypt, m, macf⟩ x
    let r' := e'.blockStep ⟨.decrypt, m, macf'⟩ r.2
    r'.2 = x ∧ r'.1.fb = r.1.fb

/-- R166 (a): in OFB the register after a transform depends on the register before it and the number of blocks alone. -/
def Obligations.OfbRegisterIgnoresData : Prop :=
  ∀ (i : Instr) (s t : State) (b : Binding), i.isTransform → s.eng.binding = some b → b.mode = .ofb →
    exec i s = .next t → t.eng.status = .ok →
    t.eng.fb = advance^[s.eng.desc.inCnt.toNat / 8] s.eng.fb

/-- R166 (c): two keystream blocks at positions less than `2^32` apart differ. -/
def Obligations.OfbKeystreamBlocksDiffer : Prop :=
  ∀ (k : KeyWords) (t : Tables) (fb : Block) (p q : Nat), p < q → q < p + 2 ^ 32 →
    fenc k t (advance^[p] fb) ≠ fenc k t (advance^[q] fb)

/-- R37 (I-e): once a block has been processed in OFB the high word of `FB` is not 0. -/
def Obligations.OfbHighWordNeverZero : Prop :=
  ∀ (i : Instr) (s t : State) (b : Binding), i.isTransform → s.eng.binding = some b → b.mode = .ofb →
    exec i s = .next t → t.eng.status = .ok → 0 < s.eng.desc.inCnt.toInt →
    1 ≤ (hiWord t.eng.fb).toNat

/-! ### `CRENC` and `CRDEC` (43_block_transform_commands.md) -/

/-- R181, R186: with legal lengths and ranges that exist, `CRENC` and `CRDEC` bind the engine in the direction and mode asked
for, seed `FB` with `FENC` of the IV in memory under the key words and tables just derived, end with `OK` and `RESULT = 0`,
and leave everything else as it was, every byte of memory and every descriptor among it. -/
def Obligations.CreateBindsTransform : Prop :=
  ∀ (s : State) (dir : Direction) (m : Mode) (macf : Bool),
    s.eng.desc.materialLengthsLegal → s.eng.desc.materialExists s.params.memSize →
    ∃ t, exec (match dir with | .encrypt => .crenc (modeCode m) macf | .decrypt => .crdec (modeCode m) macf) s
        = .next t ∧
      t = { s with
        eng := { s.eng with
          status := .ok, result := 0, binding := some ⟨dir, m, macf⟩
          k := t.eng.k, t := t.eng.t, fb := t.eng.fb, n1 := t.eng.n1, n2 := t.eng.n2 } } ∧
      ∃ iv : Block, (∀ j : Fin 8, iv[j] = Memory.read s.mem (s.eng.desc.ivBase.toNat + j.val)) ∧
        t.eng.fb = fenc t.eng.k t.eng.t iv

/-- R120: a construction that succeeds leaves in `K[j]` the four key bytes from `4 j`, least significant first. -/
def Obligations.CreateDerivesKeyWords : Prop :=
  ∀ (s t : State) (mode : BitVec 2) (macf : Bool) (i : Instr), i = .crenc mode macf ∨ i = .crdec mode macf →
    exec i s = .next t → t.eng.status = .ok →
    ∀ j : Fin 8,
      let key := fun n => (Memory.read s.mem (s.eng.desc.keyBase.toNat + n)).toNat
      (t.eng.k[j]).toNat
        = key (4 * j.val) + 2 ^ 8 * key (4 * j.val + 1) + 2 ^ 16 * key (4 * j.val + 2) + 2 ^ 24 * key (4 * j.val + 3)

/-- R122, R123: a construction that succeeds leaves in `T[j][b]` the high group's entry for `b`'s high nibble and the low
group's entry for its low nibble, the groups laid out in the material as the nibble order says, for every nibble order and
every pairing. -/
def Obligations.CreateDerivesTables : Prop :=
  ∀ (s t : State) (mode : BitVec 2) (macf : Bool) (i : Instr), i = .crenc mode macf ∨ i = .crdec mode macf →
    exec i s = .next t → t.eng.status = .ok →
    ∀ (j : Fin 4) (b : Fin 256),
      ((t.eng.t[j])[b]).toNat
        = 16 * s.materialEntry (s.params.pairing[j]).1.val (b.val / 16)
          + s.materialEntry (s.params.pairing[j]).2.val (b.val % 16)

/-- R182: `CRDEC` does exactly what `CRENC` does, but for the direction that it binds. -/
def Obligations.CrdecDiffersInDirectionOnly : Prop :=
  ∀ (mode : BitVec 2) (macf : Bool) (s t : State), exec (.crenc mode macf) s = .next t →
    exec (.crdec mode macf) s
      = .next (if t.eng.status = .ok then
          { t with eng := { t.eng with binding := t.eng.binding.map fun b => { b with dir := .decrypt } } } else t)

/-- R186 (a): a construction that succeeds leaves no trace of what the engine held before, the descriptors apart. -/
def Obligations.CreateForgetsOldTransform : Prop :=
  ∀ (mode : BitVec 2) (macf : Bool) (i : Instr) (s t : State) (old : Engine),
    i = .crenc mode macf ∨ i = .crdec mode macf → exec i s = .next t → t.eng.status = .ok →
    exec i { s with eng := { old with desc := s.eng.desc } } = .next t

/-! ### `XBLK` and `XFIN` (43_block_transform_commands.md) -/

/-- R187, R191: on a bound engine, with legal arguments and ranges that exist, `XBLK` ends with `OK` and `RESULT = cnt`,
writes no byte of memory outside the `cnt` bytes from the output address, and changes nothing else but `FB` and the working
words, `FB` not even in ECB. -/
def Obligations.XblkCompletes : Prop :=
  ∀ (s : State) (b : Binding), s.eng.binding = some b → Memory.wf s.mem = true →
    s.eng.desc.xblkArgsLegal → s.eng.desc.rangesExist s.params.memSize →
    ∃ t, exec .xblk s = .next t ∧
      t = { s with
        mem := t.mem
        eng := { s.eng with
          status := .ok, result := s.eng.desc.inCnt, fb := t.eng.fb, n1 := t.eng.n1, n2 := t.eng.n2 } } ∧
      (b.mode = .ecb → t.eng.fb = s.eng.fb) ∧
      ∀ a : Nat, ((a : Int) < s.eng.desc.outStart ∨ s.eng.desc.outStart + s.eng.desc.inCnt.toInt ≤ a) →
        Memory.read t.mem a = Memory.read s.mem a

/-- R192: the same for `XFIN`, whose count may be 0; of no bytes it writes none. -/
def Obligations.XfinCompletes : Prop :=
  ∀ (s : State) (b : Binding), s.eng.binding = some b → Memory.wf s.mem = true →
    s.eng.desc.xfinArgsLegal b → (0 < s.eng.desc.inCnt.toInt → s.eng.desc.rangesExist s.params.memSize) →
    ∃ t, exec .xfin s = .next t ∧
      t = { s with
        mem := t.mem
        eng := { s.eng with
          status := .ok, result := s.eng.desc.inCnt, fb := t.eng.fb, n1 := t.eng.n1, n2 := t.eng.n2 } } ∧
      (b.mode = .ecb ∨ s.eng.desc.inCnt = 0 → t.eng.fb = s.eng.fb) ∧
      (s.eng.desc.inCnt = 0 → t.mem = s.mem) ∧
      ∀ a : Nat, ((a : Int) < s.eng.desc.outStart ∨ s.eng.desc.outStart + s.eng.desc.inCnt.toInt ≤ a) →
        Memory.read t.mem a = Memory.read s.mem a

/-- R180, R191: whichever way `XBLK` or `XFIN` ends, it leaves alone `CONFIG`, `K`, `T`, every descriptor, the other engines
and every byte of memory outside the output range, and all of memory and `FB` unless it ends with `OK`. -/
def Obligations.TransformFrame : Prop :=
  ∀ (i : Instr) (s t : State), i.isTransform → Memory.wf s.mem = true → exec i s = .next t →
    t = { s with
      mem := t.mem
      eng := { s.eng with
        status := t.eng.status, result := t.eng.result, fb := t.eng.fb, n1 := t.eng.n1, n2 := t.eng.n2 } } ∧
    (t.eng.status ≠ .ok → t.mem = s.mem ∧ t.eng.fb = s.eng.fb) ∧
    ∀ a : Nat, ((a : Int) < s.eng.desc.outStart ∨ s.eng.desc.outStart + s.eng.desc.inCnt.toInt ≤ a) →
      Memory.read t.mem a = Memory.read s.mem a

/-- R188: the block loop. From the state before the command to the state after it there is a chain of registers and memories,
one link a block, in ascending order: block `j` is read at `ia + 8 j` from the memory that the blocks before it left, goes
through the mode engine with the register they left, and its eight bytes are written at `oa + 8 j`. -/
def Obligations.TransformFollowsBlockLoop : Prop :=
  ∀ (i : Instr) (s t : State) (b : Binding), i.isTransform → s.eng.binding = some b → Memory.wf s.mem = true →
    exec i s = .next t → t.eng.status = .ok →
    ∃ (fb : Nat → Block) (mem : Nat → Memory),
      fb 0 = s.eng.fb ∧ mem 0 = s.mem ∧
      fb (s.eng.desc.inCnt.toNat / 8) = t.eng.fb ∧ mem (s.eng.desc.inCnt.toNat / 8) = t.mem ∧
      ∀ j < s.eng.desc.inCnt.toNat / 8,
        ∃ x : Block, (∀ n : Fin 8, x[n] = Memory.read (mem j) (s.eng.desc.inStart.toNat + 8 * j + n.val)) ∧
          fb (j + 1) = (modeStep b s.eng.k s.eng.t x (fb j)).2 ∧
          (∀ n : Fin 8, Memory.read (mem (j + 1)) (s.eng.desc.outStart.toNat + 8 * j + n.val)
            = ((modeStep b s.eng.k s.eng.t x (fb j)).1)[n]) ∧
          (∀ a, (a < s.eng.desc.outStart.toNat + 8 * j ∨ s.eng.desc.outStart.toNat + 8 * j + 8 ≤ a) →
            Memory.read (mem (j + 1)) a = Memory.read (mem j) a)

/-- R195: with a count above 0 `XFIN` is `XBLK`. -/
def Obligations.XfinWithDataIsXblk : Prop :=
  ∀ s : State, 0 < s.eng.desc.inCnt.toInt → exec .xfin s = exec .xblk s

/-- R194: the zero-length final call, after checks 1 to 4: accepted in ECB, and in OFB and CFB with the MAC flag, with
nothing but `STATUS` and `RESULT` changed; else `ERR_ARG`. -/
def Obligations.XfinOfZeroLength : Prop :=
  ∀ (s : State) (b : Binding), s.eng.binding = some b → s.eng.desc.inCnt = 0 →
    0 ≤ s.eng.desc.inOff.toInt → s.eng.desc.inOff.toInt ≤ s.eng.desc.inSize.toNat →
    exec .xfin s = .next { s with
      eng := { s.eng with
        status := (match b.mode, b.macf with
          | .ecb, _ => .ok | .ofb, true => .ok | .cfb, true => .ok | .ofb, false => .errArg | .cfb, false => .errArg)
        result := 0 } }

/-! ### `DISP` (43_block_transform_commands.md) -/

/-- R197: `DISP` zeroes `K`, `T`, `FB`, `n1`, `n2` and clears `CONFIG`, ends with `OK` and `RESULT = 0`, touches nothing else
(no byte of memory, no descriptor), and is idempotent. R240 says that `DISP` leaves `STATUS` and `RESULT` as they are: that
R197 is followed there is the model's resolution (log entry 12, DEDUCED). -/
def Obligations.DispClearsTransform : Prop :=
  ∀ s : State, ∃ t, exec .disp s = .next t ∧ exec .disp t = .next t ∧
    t = { s with
      eng := { s.eng with
        status := .ok, result := 0, binding := none
        k := Vector.replicate 8 0, t := Vector.replicate 4 (Vector.replicate 256 0)
        fb := Vector.replicate 8 0, n1 := 0, n2 := 0 } }

/-! ### Whole-machine rules -/

/-- R27 to R30, R37 (I-c, I-d), R72: of all that a host can do short of resetting the machine or addressing another engine,
only `CRENC`, `CRDEC` and `DISP` change `K`, `T` or `CONFIG`, and only those and a transform command in OFB or CFB change
`FB`. -/
def Obligations.OnlyTheseChangeCipherState : Prop :=
  ∀ s t : State, step s = .next t →
    (∀ rest, s.inbox ≠ .reset :: rest) → (∀ n rest, s.inbox ≠ .select n :: rest) →
    (∀ mode macf, s.nextCommand ≠ some (.crenc mode macf)) → (∀ mode macf, s.nextCommand ≠ some (.crdec mode macf)) →
    s.nextCommand ≠ some .disp →
    t.eng.k = s.eng.k ∧ t.eng.t = s.eng.t ∧ t.eng.binding = s.eng.binding ∧
      (t.eng.fb = s.eng.fb ∨ (∃ i, s.nextCommand = some i ∧ i.isTransform) ∧
        ∃ b, s.eng.binding = some b ∧ b.mode ≠ .ecb)

/-- R20, R36, R220: `K`, `T`, `FB`, `n1`, `n2` have no read path. Of two machines that differ in nothing the host can see, a
step, other than a transform command on a bound engine, answers the same as far as the host can see; and a transform command
on a bound engine does so but for the data memory. -/
def Obligations.SecretsHaveNoReadPath : Prop :=
  ∀ s s' : State, s.visible = s'.visible →
    (¬ s.runsTransform → visibleAnswer (step s) = visibleAnswer (step s')) ∧
    (s.runsTransform → ∃ t t', step s = .next t ∧ step s' = .next t' ∧
      { t.visible with mem := s.mem } = { t'.visible with mem := s.mem })

/-- R225: engines do not interact. Short of a reset, a step leaves every engine but the one addressed as it was, and every
data memory but the one that engine is given; and addressing another engine changes none. How a host addresses an engine is
the model's choice (log entry 9): R225 does not say. -/
def Obligations.EnginesDoNotInteract : Prop :=
  ∀ s t : State, s.Inv → step s = .next t → (∀ rest, s.inbox ≠ .reset :: rest) →
    (∀ n, n ≠ s.engineId → t.engineAt n = s.engineAt n) ∧
    (∀ m, m ≠ s.memoryId → t.memoryAt m = s.memoryAt m) ∧
    (∀ n rest, s.inbox = .select n :: rest →
      t.engineId = n ∧ (∀ x, t.engineAt x = s.engineAt x) ∧ ∀ m, t.memoryAt m = s.memoryAt m)

/-- R199 (a): a transform done in pieces, each by `XBLK` or `XFIN`, leaves the same memory and the same `FB` as one command
over the whole. -/
def Obligations.SplitInvariance : Prop :=
  ∀ (i : Instr) (s t : State) (pieces : List (Instr × Nat)), i.isTransform → s.params.wf = true →
    exec i s = .next t → t.eng.status = .ok → 0 < s.eng.desc.inCnt.toInt →
    (∀ p ∈ pieces, p.1.isTransform ∧ 0 < p.2 ∧ p.2 % 8 = 0) →
    (pieces.map Prod.snd).sum = s.eng.desc.inCnt.toNat →
    ∃ u, runPieces pieces s = some u ∧ u.mem = t.mem ∧ u.eng.fb = t.eng.fb

/-- R71, R171, R246: what a transform writes and the register it leaves are a function of the cipher state and the input
bytes, the same whether the output goes over the input or to a range that shares no byte with it. -/
def Obligations.TransformDependsOnInputAlone : Prop :=
  ∀ (s s' t t' : State) (b : Binding),
    s.eng.binding = some b → s'.eng.binding = some b → s'.eng.k = s.eng.k → s'.eng.t = s.eng.t →
    s'.eng.fb = s.eng.fb → s'.eng.desc.inCnt = s.eng.desc.inCnt →
    Memory.wf s.mem = true → Memory.wf s'.mem = true →
    s.eng.desc.inPlaceOrDisjoint → s'.eng.desc.inPlaceOrDisjoint →
    (∀ n < s.eng.desc.inCnt.toNat,
      Memory.read s'.mem (s'.eng.desc.inStart.toNat + n) = Memory.read s.mem (s.eng.desc.inStart.toNat + n)) →
    exec .xblk s = .next t → t.eng.status = .ok → exec .xblk s' = .next t' → t'.eng.status = .ok →
    t'.eng.fb = t.eng.fb ∧ ∀ n < s.eng.desc.inCnt.toNat,
      Memory.read t'.mem (s'.eng.desc.outStart.toNat + n) = Memory.read t.mem (s.eng.desc.outStart.toNat + n)

/-- R199 (c): in every mode, what an encryptor wrote, in place or to another range, a decryptor made from the same material
turns back into the encryptor's input. -/
def Obligations.DecryptorRecoversPlaintext : Prop :=
  ∀ (s : State) (m : Mode) (macf macf' : Bool), Memory.wf s.mem = true →
    s.eng.desc.materialLengthsLegal → s.eng.desc.materialExists s.params.memSize →
    s.eng.desc.xblkArgsLegal → s.eng.desc.rangesExist s.params.memSize →
    s.eng.desc.inPlaceOrDisjoint → s.eng.desc.outputClearOfMaterial →
    ∃ s1 s2 s3 s4,
      exec (.crenc (modeCode m) macf) s = .next s1 ∧ exec .xblk s1 = .next s2 ∧
      exec (.crdec (modeCode m) macf') s2 = .next s3 ∧
      exec .xblk (s3.withDesc { s3.eng.desc with
        inBase := s3.eng.desc.outBase, inSize := s3.eng.desc.outSize, inOff := s3.eng.desc.outOff }) = .next s4 ∧
      s1.lastCommandOk ∧ s2.lastCommandOk ∧ s3.lastCommandOk ∧ s4.lastCommandOk ∧
      ∀ n < s.eng.desc.inCnt.toNat,
        Memory.read s4.mem (s.eng.desc.outStart.toNat + n) = Memory.read s.mem (s.eng.desc.inStart.toNat + n)

/-- R225: engines share nothing. Short of a reset and of addressing another engine (which are the model's accesses, log entries
4 and 9), what a step does depends on nothing in the other engines or in the data memories that only they are given. -/
def Obligations.StepIgnoresOtherEngines : Prop :=
  ∀ (s t : State) (peers : List (Nat × Engine)) (otherMems : List (Nat × Memory)), step s = .next t →
    (∀ rest, s.inbox ≠ .reset :: rest) → (∀ n rest, s.inbox ≠ .select n :: rest) →
    step { s with peers := peers, otherMems := otherMems } = .next { t with peers := peers, otherMems := otherMems }

/-- R225, R249: the commands of two engines with data memories of their own, issued one after the other in either order, leave
every engine and every data memory the same, whatever the command words and whatever else the system holds. How the host
addresses each engine is the model's choice (log entry 9). -/
def Obligations.CommandsOfTwoEnginesCommute : Prop :=
  ∀ (s : State) (a b : Nat) (w v : Word), s.Inv → a < s.params.nInst → b < s.params.nInst → a ≠ b →
    s.params.memoryOf a ≠ s.params.memoryOf b →
    ∃ t t',
      runSteps 4 { s with inbox := [.select a, .writeReg 0 w, .select b, .writeReg 0 v] } = some t ∧
      runSteps 4 { s with inbox := [.select b, .writeReg 0 v, .select a, .writeReg 0 w] } = some t' ∧
      (∀ n, t'.engineAt n = t.engineAt n) ∧ ∀ m, t'.memoryAt m = t.memoryAt m
end

