-- ==== Sys2Proof/Laws/State.lean ====
section
/-! SUPPORT. One lemma per field per update of `State` and `Engine`, each true by `rfl`, and the entries of a table written
out from a function. -/

namespace Sys2Proof

@[simp] theorem getElem_tabulate {α : Type} {n : Nat} (f : Fin n → α) (i : Nat) (h : i < n) :
    (tabulate f)[i] = f ⟨i, h⟩ := by simp [tabulate]

end Sys2Proof

namespace Sys2Proof.Machine

open Sys2Proof

section finish
variable (c : StatusCode) (r : Word) (s : State)
@[simp] theorem finish_params : (s.finish c r).params = s.params := rfl
@[simp] theorem finish_engineId : (s.finish c r).engineId = s.engineId := rfl
@[simp] theorem finish_peers : (s.finish c r).peers = s.peers := rfl
@[simp] theorem finish_mem : (s.finish c r).mem = s.mem := rfl
@[simp] theorem finish_otherMems : (s.finish c r).otherMems = s.otherMems := rfl
@[simp] theorem finish_inbox : (s.finish c r).inbox = s.inbox := rfl
@[simp] theorem finish_replies : (s.finish c r).replies = s.replies := rfl
@[simp] theorem finish_resets : (s.finish c r).resets = s.resets := rfl
@[simp] theorem finish_eng_status : (s.finish c r).eng.status = c := rfl
@[simp] theorem finish_eng_result : (s.finish c r).eng.result = r := rfl
@[simp] theorem finish_eng_binding : (s.finish c r).eng.binding = s.eng.binding := rfl
@[simp] theorem finish_eng_desc : (s.finish c r).eng.desc = s.eng.desc := rfl
@[simp] theorem finish_eng_k : (s.finish c r).eng.k = s.eng.k := rfl
@[simp] theorem finish_eng_t : (s.finish c r).eng.t = s.eng.t := rfl
@[simp] theorem finish_eng_fb : (s.finish c r).eng.fb = s.eng.fb := rfl
@[simp] theorem finish_eng_n1 : (s.finish c r).eng.n1 = s.eng.n1 := rfl
@[simp] theorem finish_eng_n2 : (s.finish c r).eng.n2 = s.eng.n2 := rfl
@[simp] theorem finish_finish (c' : StatusCode) (r' : Word) : (s.finish c r).finish c' r' = s.finish c' r' := rfl
end finish

section working
variable (h : Halves) (e : Engine)
@[simp] theorem working_status : (e.working h).status = e.status := rfl
@[simp] theorem working_result : (e.working h).result = e.result := rfl
@[simp] theorem working_binding : (e.working h).binding = e.binding := rfl
@[simp] theorem working_desc : (e.working h).desc = e.desc := rfl
@[simp] theorem working_k : (e.working h).k = e.k := rfl
@[simp] theorem working_t : (e.working h).t = e.t := rfl
@[simp] theorem working_fb : (e.working h).fb = e.fb := rfl
@[simp] theorem working_n1 : (e.working h).n1 = h.n1 := rfl
@[simp] theorem working_n2 : (e.working h).n2 = h.n2 := rfl
end working

section fenc
variable (b : Block) (e : Engine)
@[simp] theorem runFenc_eng : (e.runFenc b).1 = e.working (fencHalves e.k e.t b) := rfl
@[simp] theorem runFenc_block : (e.runFenc b).2 = fenc e.k e.t b := rfl
@[simp] theorem runFdec_eng : (e.runFdec b).1 = e.working (fdecHalves e.k e.t b) := rfl
@[simp] theorem runFdec_block : (e.runFdec b).2 = fdec e.k e.t b := rfl
@[simp] theorem seed_status : (e.seed b).status = e.status := rfl
@[simp] theorem seed_result : (e.seed b).result = e.result := rfl
@[simp] theorem seed_binding : (e.seed b).binding = e.binding := rfl
@[simp] theorem seed_desc : (e.seed b).desc = e.desc := rfl
@[simp] theorem seed_k : (e.seed b).k = e.k := rfl
@[simp] theorem seed_t : (e.seed b).t = e.t := rfl
@[simp] theorem seed_fb : (e.seed b).fb = fenc e.k e.t b := rfl
@[simp] theorem ofbAdv_fb : e.ofbAdv.fb = advance e.fb := rfl
@[simp] theorem ofbAdv_k : e.ofbAdv.k = e.k := rfl
@[simp] theorem ofbAdv_t : e.ofbAdv.t = e.t := rfl
end fenc

section bindTo
variable (p : Params) (b : Binding) (key : Bytes 32) (sbox : Bytes 64) (iv : Block) (e : Engine)
@[simp] theorem bindTo_status : (e.bindTo p b key sbox iv).status = e.status := rfl
@[simp] theorem bindTo_result : (e.bindTo p b key sbox iv).result = e.result := rfl
@[simp] theorem bindTo_binding : (e.bindTo p b key sbox iv).binding = some b := rfl
@[simp] theorem bindTo_desc : (e.bindTo p b key sbox iv).desc = e.desc := rfl
@[simp] theorem bindTo_k : (e.bindTo p b key sbox iv).k = keySched key := rfl
@[simp] theorem bindTo_t :
    (e.bindTo p b key sbox iv).t = sboxBuild p.pairing (sboxUnpack p.nibbleOrder sbox) := rfl
@[simp] theorem bindTo_fb :
    (e.bindTo p b key sbox iv).fb
      = fenc (keySched key) (sboxBuild p.pairing (sboxUnpack p.nibbleOrder sbox)) iv := rfl
end bindTo

section dispose
variable (e : Engine)
@[simp] theorem dispose_status : e.dispose.status = e.status := rfl
@[simp] theorem dispose_result : e.dispose.result = e.result := rfl
@[simp] theorem dispose_binding : e.dispose.binding = none := rfl
@[simp] theorem dispose_desc : e.dispose.desc = e.desc := rfl
@[simp] theorem dispose_k : e.dispose.k = Vector.replicate 8 0 := rfl
@[simp] theorem dispose_t : e.dispose.t = Vector.replicate 4 (Vector.replicate 256 0) := rfl
@[simp] theorem dispose_fb : e.dispose.fb = Vector.replicate 8 0 := rfl
@[simp] theorem dispose_n1 : e.dispose.n1 = 0 := rfl
@[simp] theorem dispose_n2 : e.dispose.n2 = 0 := rfl
end dispose

section action
variable (b : Binding) (s : State)
@[simp] theorem createAction_params : (createAction b s).1.params = s.params := rfl
@[simp] theorem createAction_engineId : (createAction b s).1.engineId = s.engineId := rfl
@[simp] theorem createAction_peers : (createAction b s).1.peers = s.peers := rfl
@[simp] theorem createAction_mem : (createAction b s).1.mem = s.mem := rfl
@[simp] theorem createAction_otherMems : (createAction b s).1.otherMems = s.otherMems := rfl
@[simp] theorem createAction_inbox : (createAction b s).1.inbox = s.inbox := rfl
@[simp] theorem createAction_replies : (createAction b s).1.replies = s.replies := rfl
@[simp] theorem createAction_resets : (createAction b s).1.resets = s.resets := rfl
@[simp] theorem createAction_count : (createAction b s).2 = 0 := rfl
@[simp] theorem transformAction_params : (transformAction b s).1.params = s.params := rfl
@[simp] theorem transformAction_engineId : (transformAction b s).1.engineId = s.engineId := rfl
@[simp] theorem transformAction_peers : (transformAction b s).1.peers = s.peers := rfl
@[simp] theorem transformAction_otherMems : (transformAction b s).1.otherMems = s.otherMems := rfl
@[simp] theorem transformAction_inbox : (transformAction b s).1.inbox = s.inbox := rfl
@[simp] theorem transformAction_replies : (transformAction b s).1.replies = s.replies := rfl
@[simp] theorem transformAction_resets : (transformAction b s).1.resets = s.resets := rfl
@[simp] theorem transformAction_count : (transformAction b s).2 = BitVec.ofInt 32 s.eng.desc.count := rfl
end action

section host
variable (n : Nat) (v : Word) (r : HostReply) (s : State)
@[simp] theorem hostWriteReg_params : (s.hostWriteReg n v).params = s.params := rfl
@[simp] theorem hostWriteReg_engineId : (s.hostWriteReg n v).engineId = s.engineId := rfl
@[simp] theorem hostWriteReg_peers : (s.hostWriteReg n v).peers = s.peers := rfl
@[simp] theorem hostWriteReg_mem : (s.hostWriteReg n v).mem = s.mem := rfl
@[simp] theorem hostWriteReg_otherMems : (s.hostWriteReg n v).otherMems = s.otherMems := rfl
@[simp] theorem hostWriteReg_inbox : (s.hostWriteReg n v).inbox = s.inbox := rfl
@[simp] theorem hostWriteReg_replies : (s.hostWriteReg n v).replies = s.replies := rfl
@[simp] theorem hostWriteReg_resets : (s.hostWriteReg n v).resets = s.resets := rfl
@[simp] theorem hostWriteReg_eng :
    (s.hostWriteReg n v).eng = { s.eng with desc := s.eng.desc.write n v } := rfl
@[simp] theorem reply_params : (s.reply r).params = s.params := rfl
@[simp] theorem reply_engineId : (s.reply r).engineId = s.engineId := rfl
@[simp] theorem reply_eng : (s.reply r).eng = s.eng := rfl
@[simp] theorem reply_peers : (s.reply r).peers = s.peers := rfl
@[simp] theorem reply_mem : (s.reply r).mem = s.mem := rfl
@[simp] theorem reply_otherMems : (s.reply r).otherMems = s.otherMems := rfl
@[simp] theorem reply_inbox : (s.reply r).inbox = s.inbox := rfl
@[simp] theorem reply_replies : (s.reply r).replies = r :: s.replies := rfl
@[simp] theorem reply_resets : (s.reply r).resets = s.resets := rfl
@[simp] theorem platformReset_params : s.platformReset.params = s.params := rfl
@[simp] theorem platformReset_engineId : s.platformReset.engineId = s.engineId := rfl
@[simp] theorem platformReset_eng : s.platformReset.eng = Engine.afterReset s.resets s.engineId := rfl
@[simp] theorem platformReset_peers :
    s.platformReset.peers = s.peers.map fun p => (p.1, Engine.afterReset s.resets p.1) := rfl
@[simp] theorem platformReset_mem : s.platformReset.mem = s.params.m0 := rfl
@[simp] theorem platformReset_otherMems :
    s.platformReset.otherMems = s.otherMems.map fun p => (p.1, s.params.m0) := rfl
@[simp] theorem platformReset_inbox : s.platformReset.inbox = s.inbox := rfl
@[simp] theorem platformReset_replies : s.platformReset.replies = s.replies := rfl
@[simp] theorem platformReset_resets : s.platformReset.resets = s.resets + 1 := rfl
@[simp] theorem withFetchWord_inbox (nbits w : Nat) :
    (s.withFetchWord nbits w).inbox = .writeReg 0 (BitVec.ofNat 32 (w % 2 ^ nbits)) :: s.inbox := rfl
@[simp] theorem withFetchWord_eng (nbits w : Nat) : (s.withFetchWord nbits w).eng = s.eng := rfl
@[simp] theorem withFetchWord_mem (nbits w : Nat) : (s.withFetchWord nbits w).mem = s.mem := rfl
@[simp] theorem withFetchWord_otherMems (nbits w : Nat) : (s.withFetchWord nbits w).otherMems = s.otherMems := rfl
end host

end Sys2Proof.Machine
end

