-- ==== Sys2Proof/Laws/Bytes.lean ====
section
/-! SUPPORT. Words and their bytes, blocks and their words, and the bytewise exclusive or. -/

namespace Sys2Proof.Machine

open Sys2Proof

theorem toNat_le32 (b0 b1 b2 b3 : Byte) :
    (le32 b0 b1 b2 b3).toNat = b0.toNat + 2 ^ 8 * b1.toNat + 2 ^ 16 * b2.toNat + 2 ^ 24 * b3.toNat := by
  have h0 := b0.isLt; have h1 := b1.isLt; have h2 := b2.isLt; have h3 := b3.isLt
  simp only [le32, BitVec.toNat_append]
  rw [← Nat.shiftLeft_add_eq_or_of_lt h2, ← Nat.shiftLeft_add_eq_or_of_lt h1, ← Nat.shiftLeft_add_eq_or_of_lt h0]
  simp only [Nat.shiftLeft_eq]
  omega

theorem toNat_byteOf (w : Word) (i : Nat) : (byteOf w i).toNat = w.toNat / 2 ^ (8 * i) % 2 ^ 8 := by
  simp [byteOf, BitVec.extractLsb'_toNat, Nat.shiftRight_eq_div_pow]

/-- A word is put together again from its bytes. -/
@[simp] theorem le32_byteOf (w : Word) : le32 (byteOf w 0) (byteOf w 1) (byteOf w 2) (byteOf w 3) = w := by
  apply BitVec.eq_of_toNat_eq
  rw [toNat_le32]
  simp only [toNat_byteOf]
  have := w.isLt
  omega

theorem byteOf_le32 (b0 b1 b2 b3 : Byte) :
    byteOf (le32 b0 b1 b2 b3) 0 = b0 ∧ byteOf (le32 b0 b1 b2 b3) 1 = b1 ∧
      byteOf (le32 b0 b1 b2 b3) 2 = b2 ∧ byteOf (le32 b0 b1 b2 b3) 3 = b3 := by
  have h0 := b0.isLt; have h1 := b1.isLt; have h2 := b2.isLt; have h3 := b3.isLt
  refine ⟨?_, ?_, ?_, ?_⟩ <;> (apply BitVec.eq_of_toNat_eq; rw [toNat_byteOf, toNat_le32]; omega)

@[simp] theorem byteOf_le32_0 (b0 b1 b2 b3 : Byte) : byteOf (le32 b0 b1 b2 b3) 0 = b0 := (byteOf_le32 ..).1
@[simp] theorem byteOf_le32_1 (b0 b1 b2 b3 : Byte) : byteOf (le32 b0 b1 b2 b3) 1 = b1 := (byteOf_le32 ..).2.1
@[simp] theorem byteOf_le32_2 (b0 b1 b2 b3 : Byte) : byteOf (le32 b0 b1 b2 b3) 2 = b2 := (byteOf_le32 ..).2.2.1
@[simp] theorem byteOf_le32_3 (b0 b1 b2 b3 : Byte) : byteOf (le32 b0 b1 b2 b3) 3 = b3 := (byteOf_le32 ..).2.2.2

@[simp] theorem loWord_blockOf (lo hi : Word) : loWord (blockOf lo hi) = lo := by simp [loWord, blockOf]
@[simp] theorem hiWord_blockOf (lo hi : Word) : hiWord (blockOf lo hi) = hi := by simp [hiWord, blockOf]

/-- A block is put together again from its words. -/
@[simp] theorem blockOf_words (b : Block) : blockOf (loWord b) (hiWord b) = b := by
  ext i hi
  have hcase : i = 0 ∨ i = 1 ∨ i = 2 ∨ i = 3 ∨ i = 4 ∨ i = 5 ∨ i = 6 ∨ i = 7 := by omega
  rcases hcase with rfl | rfl | rfl | rfl | rfl | rfl | rfl | rfl <;> simp [blockOf, loWord, hiWord]

@[simp] theorem loadBlock_storeBlock (h : Halves) : loadBlock (storeBlock h) = ⟨h.n2, h.n1⟩ := by
  simp [loadBlock, storeBlock]

@[simp] theorem storeBlock_swap_loadBlock (b : Block) :
    storeBlock ⟨(loadBlock b).n2, (loadBlock b).n1⟩ = b := by
  simp [storeBlock, loadBlock]

@[simp] theorem getElem_xorBlock (x y : Block) (i : Nat) (h : i < 8) : (xorBlock x y)[i] = x[i] ^^^ y[i] := by
  simp [xorBlock]

/-- The exclusive or with the same block twice is the identity. -/
@[simp] theorem xorBlock_cancel (x y : Block) : xorBlock (xorBlock x y) y = x := by
  ext i hi
  simp

end Sys2Proof.Machine
end

