-- ==== Sys2Proof/Laws/Memory.lean ====
section
/-! SUPPORT. The data memory: a read after a write, every other byte left alone, the canonical form kept, and equal
contents being equal data. -/

namespace Sys2Proof

theorem wfFrom_mono {lo lo' : Nat} (h : lo' ≤ lo) {m : Memory} (hm : Memory.wfFrom lo m = true) :
    Memory.wfFrom lo' m = true := by
  cases m with
  | nil => rfl
  | cons c rest =>
    obtain ⟨a, b⟩ := c
    simp only [Memory.wfFrom, Bool.and_eq_true, decide_eq_true_eq] at hm ⊢
    exact ⟨⟨by omega, hm.1.2⟩, hm.2⟩

/-- Below the first address that a canonical memory may list, every address is unlisted. -/
theorem read_below {lo : Nat} {m : Memory} (hm : Memory.wfFrom lo m = true) {a : Nat} (ha : a < lo) :
    Memory.read m a = Memory.unlisted := by
  induction m generalizing lo with
  | nil => rfl
  | cons c rest ih =>
    obtain ⟨a', b⟩ := c
    simp only [Memory.wfFrom, Bool.and_eq_true, decide_eq_true_eq] at hm
    rw [Memory.read, if_neg (by omega)]
    exact ih hm.2 (by omega)

theorem read_cons (a : Nat) (b : Byte) {rest : Memory} (hm : Memory.wfFrom (a + 1) rest = true) (x : Nat) :
    Memory.read (Memory.cons a b rest) x = if x = a then b else Memory.read rest x := by
  unfold Memory.cons
  split
  · next hb =>
    split
    · next hx => subst hx; rw [read_below hm (by omega), hb]
    · rfl
  · rfl

theorem wfFrom_cons {a lo : Nat} (ha : lo ≤ a) (b : Byte) {rest : Memory}
    (hm : Memory.wfFrom (a + 1) rest = true) : Memory.wfFrom lo (Memory.cons a b rest) = true := by
  unfold Memory.cons
  split
  · exact wfFrom_mono (by omega) hm
  · next hb => simp [Memory.wfFrom, ha, hb, hm]

theorem wfFrom_write {lo : Nat} {m : Memory} (hm : Memory.wfFrom lo m = true) {a : Nat} (ha : lo ≤ a) (b : Byte) :
    Memory.wfFrom lo (Memory.write m a b) = true := by
  induction m generalizing lo with
  | nil => exact wfFrom_cons ha b rfl
  | cons c rest ih =>
    obtain ⟨a', b'⟩ := c
    have hm' := hm
    simp only [Memory.wfFrom, Bool.and_eq_true, decide_eq_true_eq] at hm'
    unfold Memory.write
    split
    · next hlt =>
      refine wfFrom_cons ha b ?_
      simp only [Memory.wfFrom, Bool.and_eq_true, decide_eq_true_eq]
      exact ⟨⟨by omega, hm'.1.2⟩, hm'.2⟩
    · split
      · next heq => subst heq; exact wfFrom_cons ha b hm'.2
      · simp only [Memory.wfFrom, Bool.and_eq_true, decide_eq_true_eq]
        exact ⟨hm'.1, ih hm'.2 (by omega)⟩

/-- A write of one byte keeps the canonical form. -/
theorem wf_write {m : Memory} (hm : Memory.wf m = true) (a : Nat) (b : Byte) :
    Memory.wf (Memory.write m a b) = true :=
  wfFrom_write hm (Nat.zero_le a) b

theorem read_write_from {lo : Nat} {m : Memory} (hm : Memory.wfFrom lo m = true) (a : Nat) (b : Byte) (x : Nat) :
    Memory.read (Memory.write m a b) x = if x = a then b else Memory.read m x := by
  induction m generalizing lo with
  | nil => exact read_cons a b rfl x
  | cons c rest ih =>
    obtain ⟨a', b'⟩ := c
    have hm' := hm
    simp only [Memory.wfFrom, Bool.and_eq_true, decide_eq_true_eq] at hm'
    unfold Memory.write
    split
    · next hlt =>
      refine read_cons a b ?_ x
      simp only [Memory.wfFrom, Bool.and_eq_true, decide_eq_true_eq]
      exact ⟨⟨by omega, hm'.1.2⟩, hm'.2⟩
    · split
      · next heq =>
        subst heq
        rw [read_cons a b hm'.2]
        by_cases hx : x = a <;> simp [Memory.read, hx]
      · next hne =>
        simp only [Memory.read]
        rw [ih hm'.2]
        by_cases hx : x = a'
        · simp [hx, show a' ≠ a by omega]
        · simp [hx]

/-- The one law of a byte write: the byte written, and every other byte as before. -/
theorem read_write {m : Memory} (hm : Memory.wf m = true) (a : Nat) (b : Byte) (x : Nat) :
    Memory.read (Memory.write m a b) x = if x = a then b else Memory.read m x :=
  read_write_from hm a b x

/-- A write of a byte string keeps the canonical form. -/
theorem wf_writeBytes {m : Memory} (hm : Memory.wf m = true) (addr : Nat) (bytes : List Byte) :
    Memory.wf (Memory.writeBytes m addr bytes) = true := by
  induction bytes generalizing m addr with
  | nil => exact hm
  | cons b rest ih => exact ih (wf_write hm addr b) (addr + 1)

/-- The one law of a byte string write: inside the range the bytes written, outside it every byte as before. -/
theorem read_writeBytes {m : Memory} (hm : Memory.wf m = true) (addr : Nat) (bytes : List Byte) (x : Nat) :
    Memory.read (Memory.writeBytes m addr bytes) x
      = if h : addr ≤ x ∧ x < addr + bytes.length then bytes[x - addr]'(by omega) else Memory.read m x := by
  induction bytes generalizing m addr with
  | nil => simp [Memory.writeBytes, show ¬ (addr ≤ x ∧ x < addr) by omega]
  | cons b rest ih =>
    rw [Memory.writeBytes, ih (wf_write hm addr b) (addr + 1), read_write hm]
    rcases Nat.lt_trichotomy x addr with h | h | h
    · rw [dif_neg (by omega), if_neg (by omega), dif_neg (by simp only [List.length_cons]; omega)]
    · subst h
      simp
    · by_cases hx : x < addr + 1 + rest.length
      · obtain ⟨k, rfl⟩ : ∃ k, x = addr + 1 + k := ⟨x - (addr + 1), by omega⟩
        simp [show addr ≤ addr + 1 + k by omega, show addr + 1 + k < addr + (rest.length + 1) by omega,
          show k < rest.length by omega, show addr + 1 + k - addr = k + 1 by omega]
      · rw [dif_neg (by omega), if_neg (by omega), dif_neg (by simp only [List.length_cons]; omega)]

/-- Outside the range written, every byte is as before. -/
theorem read_writeBytes_outside {m : Memory} (hm : Memory.wf m = true) (addr : Nat) (bytes : List Byte) {x : Nat}
    (hx : x < addr ∨ addr + bytes.length ≤ x) :
    Memory.read (Memory.writeBytes m addr bytes) x = Memory.read m x := by
  rw [read_writeBytes hm, dif_neg (by omega)]

@[simp] theorem getElem_readBytes (m : Memory) (addr n i : Nat) (h : i < n) :
    (Memory.readBytes m addr n)[i] = Memory.read m (addr + i) := by simp [Memory.readBytes]

/-- A read of the range just written brings the bytes back. -/
theorem readBytes_writeBytes_same {m : Memory} (hm : Memory.wf m = true) (addr : Nat) {n : Nat} (b : Bytes n) :
    Memory.readBytes (Memory.writeBytes m addr b.toList) addr n = b := by
  ext i hi
  rw [getElem_readBytes, read_writeBytes hm, dif_pos (by simp; omega)]
  simp

/-- A read of a range that a write does not touch. -/
theorem readBytes_writeBytes_disjoint {m : Memory} (hm : Memory.wf m = true) (addr : Nat) (bytes : List Byte)
    {addr' n : Nat} (h : addr' + n ≤ addr ∨ addr + bytes.length ≤ addr') :
    Memory.readBytes (Memory.writeBytes m addr bytes) addr' n = Memory.readBytes m addr' n := by
  ext i hi
  rw [getElem_readBytes, getElem_readBytes, read_writeBytes_outside hm _ _ (by omega)]

theorem eq_of_read_from {lo : Nat} {m m' : Memory} (hm : Memory.wfFrom lo m = true)
    (hm' : Memory.wfFrom lo m' = true) (h : ∀ a, Memory.read m a = Memory.read m' a) : m = m' := by
  induction m generalizing lo m' with
  | nil =>
    cases m' with
    | nil => rfl
    | cons c rest =>
      obtain ⟨a, b⟩ := c
      have := h a
      simp_all [Memory.wfFrom, Memory.read]
  | cons c rest ih =>
    obtain ⟨a, b⟩ := c
    cases m' with
    | nil =>
      have := h a
      simp_all [Memory.wfFrom, Memory.read]
    | cons c' rest' =>
      obtain ⟨a', b'⟩ := c'
      simp only [Memory.wfFrom, Bool.and_eq_true, decide_eq_true_eq, bne_iff_ne, ne_eq] at hm hm'
      have hlow : ∀ x ≤ a, Memory.read rest x = Memory.unlisted := fun x hx => read_below hm.2 (by omega)
      have hlow' : ∀ x ≤ a', Memory.read rest' x = Memory.unlisted := fun x hx => read_below hm'.2 (by omega)
      have haa : a = a' := by
        rcases Nat.lt_trichotomy a a' with hlt | heq | hlt
        · have := h a
          simp only [Memory.read, if_neg (show ¬ a = a' by omega), hlow' a (by omega)] at this
          exact absurd (by simpa using this) hm.1.2
        · exact heq
        · have := h a'
          simp only [Memory.read, if_neg (show ¬ a' = a by omega), hlow a' (by omega)] at this
          exact absurd (by simpa using this.symm) hm'.1.2
      subst haa
      have hb : b = b' := by simpa [Memory.read] using h a
      subst hb
      have hrest : rest = rest' := by
        refine ih hm.2 hm'.2 fun x => ?_
        by_cases hx : x = a
        · subst hx; rw [hlow x (Nat.le_refl x), hlow' x (Nat.le_refl x)]
        · simpa [Memory.read, hx] using h x
      rw [hrest]

/-- Two memories in canonical form that hold the same bytes are equal data. -/
theorem eq_of_read {m m' : Memory} (hm : Memory.wf m = true) (hm' : Memory.wf m' = true)
    (h : ∀ a, Memory.read m a = Memory.read m' a) : m = m' :=
  eq_of_read_from hm hm' h

/-- A memory lists no address at or above `size` exactly when every such address is unlisted (one direction). -/
theorem within_write {size : Nat} {m : Memory} (hm : Memory.within size m = true) {a : Nat} (ha : a < size)
    (b : Byte) : Memory.within size (Memory.write m a b) = true := by
  have hcons : ∀ {rest : Memory}, Memory.within size rest = true →
      Memory.within size (Memory.cons a b rest) = true := by
    intro rest hr
    unfold Memory.cons
    split
    · exact hr
    · simpa [Memory.within, ha] using hr
  induction m with
  | nil => exact hcons rfl
  | cons c rest ih =>
    have hm' : c.1 < size ∧ Memory.within size rest = true := by simpa [Memory.within] using hm
    obtain ⟨a', b'⟩ := c
    unfold Memory.write
    split
    · exact hcons hm
    · split
      · exact hcons hm'.2
      · simpa [Memory.within] using ⟨hm'.1, by simpa [Memory.within] using ih hm'.2⟩

/-- A write of a byte string that lies in the memory lists no address outside it. -/
theorem within_writeBytes {size : Nat} {m : Memory} (hm : Memory.within size m = true) {addr : Nat}
    {bytes : List Byte} (h : addr + bytes.length ≤ size) :
    Memory.within size (Memory.writeBytes m addr bytes) = true := by
  induction bytes generalizing m addr with
  | nil => exact hm
  | cons b rest ih =>
    simp only [List.length_cons] at h
    exact ih (within_write hm (by omega) b) (by omega)

end Sys2Proof
end

