-- ==== Sys2Proof/Laws/Ops.lean ====
section
/-! SUPPORT. What each shared operation can do, said once: the checks, the frame of a command, the block step and the block
loop, the commands, and one host access. -/

namespace Sys2Proof.Machine

open Sys2Proof

/-- The spec's `sint` is the two's complement value. -/
theorem sint_eq_toInt (v : Word) : sint v = v.toInt := by
  unfold sint
  rw [BitVec.toInt_eq_toNat_cond]
  split <;> split <;> omega

theorem uint_nonneg (v : Word) : 0 ≤ uint v := Int.natCast_nonneg _

/-- The count stored as a word is the word it was read from. -/
theorem ofInt_count (d : Descriptors) : BitVec.ofInt 32 d.count = d.inCnt := by
  rw [Descriptors.count, sint_eq_toInt, BitVec.ofInt_toInt]

theorem firstFailure_eq_none {checks : List (Bool × StatusCode)} :
    firstFailure checks = none ↔ ∀ c ∈ checks, c.1 = false := by
  induction checks with
  | nil => simp [firstFailure]
  | cons c rest ih =>
    obtain ⟨fails, code⟩ := c
    cases fails <;> simp [firstFailure, ih]

/-- The code a list of checks fails with is the code of one of them that fails. -/
theorem mem_of_firstFailure {checks : List (Bool × StatusCode)} {code : StatusCode}
    (h : firstFailure checks = some code) : (true, code) ∈ checks := by
  induction checks with
  | nil => simp [firstFailure] at h
  | cons c rest ih =>
    obtain ⟨fails, code'⟩ := c
    cases fails with
    | false => exact List.mem_cons_of_mem _ (ih (by simpa [firstFailure] using h))
    | true =>
      simp only [firstFailure, if_true, Option.some.injEq] at h
      simp [h]

/-- The first failure of two lists of checks, one after the other. -/
theorem firstFailure_append (a b : List (Bool × StatusCode)) :
    firstFailure (a ++ b) = (firstFailure a).or (firstFailure b) := by
  induction a with
  | nil => rfl
  | cons c rest ih =>
    obtain ⟨fails, code⟩ := c
    cases fails <;> simp [firstFailure, ih]

/-- Raising an error answers the state with `STATUS` and `RESULT` written and nothing else. -/
theorem raise_eq_next {code : StatusCode} {s t : State} : raise code s = .next t ↔ t = s.finish code 0 := by
  unfold raise
  constructor
  · intro h; injection h with h; exact h.symm
  · rintro rfl; rfl

/-- Everything the frame of a command can do. -/
theorem commandFrame_cases (checks : List (Bool × StatusCode)) (action : State → State × Word) (s : State) :
    (∃ code, firstFailure checks = some code ∧ commandFrame checks action s = .next (s.finish code 0)) ∨
    (firstFailure checks = none ∧ commandFrame checks action s = .next ((action s).1.finish .ok (action s).2)) := by
  unfold commandFrame
  cases h : firstFailure checks with
  | some code => exact .inl ⟨code, rfl, rfl⟩
  | none => exact .inr ⟨rfl, rfl⟩

theorem modeOfField_eq_none {field : BitVec 2} : modeOfField field = none ↔ field = 3#2 := by
  revert field; decide

/-- Everything `CRENC` and `CRDEC` can do. -/
theorem createTransform_cases (dir : Direction) (mode : BitVec 2) (macf : Bool) (s : State) :
    (∃ code, (code = .errCfg ∨ code = .errBus) ∧
      createTransform dir mode macf s = .next (s.finish code 0)) ∨
    (∃ m, modeOfField mode = some m ∧ firstFailure (createChecks s.params.memSize s.eng.desc) = none ∧
      createTransform dir mode macf s = .next ((createAction ⟨dir, m, macf⟩ s).1.finish .ok 0)) := by
  unfold createTransform
  cases h : modeOfField mode with
  | none => exact .inl ⟨.errCfg, .inl rfl, rfl⟩
  | some m =>
    rcases commandFrame_cases (createChecks s.params.memSize s.eng.desc) (createAction ⟨dir, m, macf⟩) s with
      ⟨code, hc, he⟩ | ⟨hc, he⟩
    · refine .inl ⟨code, ?_, he⟩
      have := mem_of_firstFailure hc
      simp only [createChecks, List.mem_cons, Prod.mk.injEq, List.not_mem_nil, or_false] at this
      tauto
    · exact .inr ⟨m, rfl, hc, he⟩

/-- Everything `XBLK` can do. -/
theorem execXblk_cases (s : State) :
    (s.eng.binding = none ∧ execXblk s = .next (s.finish .errState 0)) ∨
    (∃ b code, s.eng.binding = some b ∧ (code = .errArg ∨ code = .errBus) ∧
      execXblk s = .next (s.finish code 0)) ∨
    (∃ b, s.eng.binding = some b ∧
      firstFailure (xblkArgChecks s.eng.desc ++ transformBusChecks s.params.memSize s.eng.desc) = none ∧
      execXblk s = .next ((transformAction b s).1.finish .ok s.eng.desc.inCnt)) := by
  unfold execXblk
  cases h : s.eng.binding with
  | none => exact .inl ⟨rfl, rfl⟩
  | some b =>
    rcases commandFrame_cases (xblkArgChecks s.eng.desc ++ transformBusChecks s.params.memSize s.eng.desc)
      (transformAction b) s with ⟨code, hc, he⟩ | ⟨hc, he⟩
    · refine .inr (.inl ⟨b, code, rfl, ?_, he⟩)
      have := mem_of_firstFailure hc
      simp only [xblkArgChecks, transformBusChecks, List.cons_append, List.nil_append, List.mem_cons,
        Prod.mk.injEq, List.not_mem_nil, or_false] at this
      tauto
    · exact .inr (.inr ⟨b, rfl, hc, by simpa only [transformAction_count, ofInt_count] using he⟩)

/-- Everything `XFIN` can do. -/
theorem execXfin_cases (s : State) :
    (s.eng.binding = none ∧ execXfin s = .next (s.finish .errState 0)) ∨
    (∃ b code, s.eng.binding = some b ∧ (code = .errArg ∨ code = .errBus) ∧
      execXfin s = .next (s.finish code 0)) ∨
    (∃ b, s.eng.binding = some b ∧
      firstFailure (xfinArgChecks b s.eng.desc ++ transformBusChecks s.params.memSize s.eng.desc) = none ∧
      execXfin s = .next ((transformAction b s).1.finish .ok s.eng.desc.inCnt)) := by
  unfold execXfin
  cases h : s.eng.binding with
  | none => exact .inl ⟨rfl, rfl⟩
  | some b =>
    rcases commandFrame_cases (xfinArgChecks b s.eng.desc ++ transformBusChecks s.params.memSize s.eng.desc)
      (transformAction b) s with ⟨code, hc, he⟩ | ⟨hc, he⟩
    · refine .inr (.inl ⟨b, code, rfl, ?_, he⟩)
      have := mem_of_firstFailure hc
      simp only [xfinArgChecks, transformBusChecks, List.cons_append, List.nil_append, List.mem_cons,
        Prod.mk.injEq, List.not_mem_nil, or_false] at this
      tauto
    · exact .inr (.inr ⟨b, rfl, hc, by simpa only [transformAction_count, ofInt_count] using he⟩)

/-- What a block step changes: `FB`, `n1`, `n2`, and nothing else of the engine. -/
theorem blockStep_frame (b : Binding) (x : Block) (e : Engine) :
    (e.blockStep b x).1
      = { e with fb := (e.blockStep b x).1.fb, n1 := (e.blockStep b x).1.n1, n2 := (e.blockStep b x).1.n2 } := by
  obtain ⟨dir, mode, macf⟩ := b
  cases mode <;> cases dir <;> rfl

/-- ECB leaves `FB` alone. -/
theorem blockStep_ecb_fb (dir : Direction) (macf : Bool) (x : Block) (e : Engine) :
    (e.blockStep ⟨dir, .ecb, macf⟩ x).1.fb = e.fb := by cases dir <;> rfl

/-- What the block loop changes of the engine: `FB`, `n1`, `n2`, and nothing else. -/
theorem blockLoop_frame (b : Binding) (n ia oa : Nat) (e : Engine) (m : Memory) :
    (blockLoop b n ia oa e m).1
      = { e with
          fb := (blockLoop b n ia oa e m).1.fb
          n1 := (blockLoop b n ia oa e m).1.n1
          n2 := (blockLoop b n ia oa e m).1.n2 } := by
  induction n generalizing ia oa e m with
  | zero => rfl
  | succ n ih =>
    rw [blockLoop, ih]
    simp only [blockOnce]
    rw [blockStep_frame]

theorem blockLoop_ecb_fb (dir : Direction) (macf : Bool) (n ia oa : Nat) (e : Engine) (m : Memory) :
    (blockLoop ⟨dir, .ecb, macf⟩ n ia oa e m).1.fb = e.fb := by
  induction n generalizing ia oa e m with
  | zero => rfl
  | succ n ih => rw [blockLoop, ih]; exact blockStep_ecb_fb dir macf _ e

/-- The block loop keeps the canonical form of the memory. -/
theorem blockLoop_wf (b : Binding) (n ia oa : Nat) (e : Engine) {m : Memory} (hm : Memory.wf m = true) :
    Memory.wf (blockLoop b n ia oa e m).2 = true := by
  induction n generalizing ia oa e m with
  | zero => exact hm
  | succ n ih => exact ih _ _ _ (wf_writeBytes hm _ _)

/-- The block loop writes the `8 n` bytes from `oa` and no others. -/
theorem blockLoop_outside (b : Binding) (n ia oa : Nat) (e : Engine) {m : Memory} (hm : Memory.wf m = true) {x : Nat}
    (hx : x < oa ∨ oa + 8 * n ≤ x) : Memory.read (blockLoop b n ia oa e m).2 x = Memory.read m x := by
  induction n generalizing ia oa e m with
  | zero => rfl
  | succ n ih =>
    rw [blockLoop, ih _ _ _ (m := (blockOnce b ia oa e m).2) (wf_writeBytes hm _ _) (by omega)]
    exact read_writeBytes_outside hm _ _ (by simp; omega)

/-- The block loop over a range that exists lists no address outside the memory. -/
theorem blockLoop_within (b : Binding) (n ia oa : Nat) (e : Engine) {m : Memory} {size : Nat}
    (hm : Memory.within size m = true) (h : oa + 8 * n ≤ size) :
    Memory.within size (blockLoop b n ia oa e m).2 = true := by
  induction n generalizing ia oa e m with
  | zero => exact hm
  | succ n ih => exact ih _ _ _ (within_writeBytes hm (by simp; omega)) (by omega)

/-- A loop of `m + n` blocks is a loop of `m` and then one of `n` that starts where the first ended. -/
theorem blockLoop_add (b : Binding) (m n ia oa : Nat) (e : Engine) (mem : Memory) :
    blockLoop b (m + n) ia oa e mem
      = blockLoop b n (ia + 8 * m) (oa + 8 * m) (blockLoop b m ia oa e mem).1 (blockLoop b m ia oa e mem).2 := by
  induction m generalizing ia oa e mem with
  | zero => simp [blockLoop]
  | succ m ih =>
    rw [Nat.add_right_comm, blockLoop, ih, blockLoop]
    congr 1 <;> omega

@[simp] theorem transformAction_desc (b : Binding) (s : State) :
    (transformAction b s).1.eng.desc = s.eng.desc := by
  simp only [transformAction]; rw [blockLoop_frame]
@[simp] theorem transformAction_binding (b : Binding) (s : State) :
    (transformAction b s).1.eng.binding = s.eng.binding := by
  simp only [transformAction]; rw [blockLoop_frame]
@[simp] theorem transformAction_k (b : Binding) (s : State) : (transformAction b s).1.eng.k = s.eng.k := by
  simp only [transformAction]; rw [blockLoop_frame]
@[simp] theorem transformAction_t (b : Binding) (s : State) : (transformAction b s).1.eng.t = s.eng.t := by
  simp only [transformAction]; rw [blockLoop_frame]

/-- Every command answers a next state. -/
theorem exec_next (i : Instr) (s : State) : ∃ t, exec i s = .next t := by
  cases i with
  | crenc mode macf =>
    rcases createTransform_cases .encrypt mode macf s with ⟨_, _, h⟩ | ⟨_, _, _, h⟩ <;> exact ⟨_, h⟩
  | crdec mode macf =>
    rcases createTransform_cases .decrypt mode macf s with ⟨_, _, h⟩ | ⟨_, _, _, h⟩ <;> exact ⟨_, h⟩
  | xblk => rcases execXblk_cases s with ⟨_, h⟩ | ⟨_, _, _, _, h⟩ | ⟨_, _, _, h⟩ <;> exact ⟨_, h⟩
  | xfin => rcases execXfin_cases s with ⟨_, h⟩ | ⟨_, _, _, _, h⟩ | ⟨_, _, _, h⟩ <;> exact ⟨_, h⟩
  | disp => exact ⟨_, rfl⟩

/-- What a command leaves alone outside the engine addressed, whichever way it ends. -/
theorem exec_frame {i : Instr} {s t : State} (h : exec i s = .next t) :
    t.params = s.params ∧ t.engineId = s.engineId ∧ t.peers = s.peers ∧ t.otherMems = s.otherMems ∧ t.inbox = s.inbox ∧
      t.replies = s.replies ∧ t.resets = s.resets ∧ t.eng.desc = s.eng.desc := by
  have next_inj : ∀ {u : State}, exec i s = .next u → t = u := fun hu => by rw [h] at hu; injection hu
  cases i with
  | crenc mode macf =>
    rcases createTransform_cases .encrypt mode macf s with ⟨_, _, hu⟩ | ⟨_, _, _, hu⟩ <;>
      (rw [next_inj hu]; simp [createAction])
  | crdec mode macf =>
    rcases createTransform_cases .decrypt mode macf s with ⟨_, _, hu⟩ | ⟨_, _, _, hu⟩ <;>
      (rw [next_inj hu]; simp [createAction])
  | xblk =>
    rcases execXblk_cases s with ⟨_, hu⟩ | ⟨_, _, _, _, hu⟩ | ⟨_, _, _, hu⟩ <;> (rw [next_inj hu]; simp)
  | xfin =>
    rcases execXfin_cases s with ⟨_, hu⟩ | ⟨_, _, _, _, hu⟩ | ⟨_, _, _, hu⟩ <;> (rw [next_inj hu]; simp)
  | disp => rw [next_inj (u := State.finish .ok 0 { s with eng := s.eng.dispose }) rfl]; simp

/-- A command reads and changes nothing of the machine but the engine addressed, its data memory and the parameters. -/
theorem exec_local {i : Instr} {s t : State} (h : exec i s = .next t) (s' : State) :
    exec i { s' with params := s.params, eng := s.eng, mem := s.mem }
      = .next { s' with params := s.params, eng := t.eng, mem := t.mem } := by
  have frame : ∀ (checks : List (Bool × StatusCode)) (action : State → State × Word),
      (action { s' with params := s.params, eng := s.eng, mem := s.mem }
        = ({ s' with params := s.params, eng := (action s).1.eng, mem := (action s).1.mem }, (action s).2)) →
      commandFrame checks action s = .next t →
      commandFrame checks action { s' with params := s.params, eng := s.eng, mem := s.mem }
        = .next { s' with params := s.params, eng := t.eng, mem := t.mem } := by
    intro checks action ha h
    unfold commandFrame at h ⊢
    split at h
    · injection h with h; subst h; rfl
    · injection h with h; subst h; rw [ha]; rfl
  have raised : ∀ code : StatusCode, raise code s = .next t →
      raise code { s' with params := s.params, eng := s.eng, mem := s.mem }
        = .next { s' with params := s.params, eng := t.eng, mem := t.mem } := by
    intro code h
    rw [raise_eq_next] at h; subst h; rfl
  have create : ∀ dir mode macf, createTransform dir mode macf s = .next t →
      createTransform dir mode macf { s' with params := s.params, eng := s.eng, mem := s.mem }
        = .next { s' with params := s.params, eng := t.eng, mem := t.mem } := by
    intro dir mode macf h
    unfold createTransform at h ⊢
    cases hm : modeOfField mode with
    | none => rw [hm] at h; exact raised _ h
    | some m => rw [hm] at h; exact frame _ _ rfl h
  cases i with
  | crenc mode macf => exact create _ _ _ h
  | crdec mode macf => exact create _ _ _ h
  | xblk =>
    show execXblk _ = _
    have h' : execXblk s = .next t := h
    unfold execXblk at h' ⊢
    cases hb : s.eng.binding with
    | none => simp only [hb] at h' ⊢; exact raised _ h'
    | some b => simp only [hb] at h' ⊢; exact frame _ _ rfl h'
  | xfin =>
    show execXfin _ = _
    have h' : execXfin s = .next t := h
    unfold execXfin at h' ⊢
    cases hb : s.eng.binding with
    | none => simp only [hb] at h' ⊢; exact raised _ h'
    | some b => simp only [hb] at h' ⊢; exact frame _ _ rfl h'
  | disp =>
    show execDisp _ = _
    exact frame [] (fun s => ({ s with eng := s.eng.dispose }, 0)) rfl h

/-- Everything a write of `CMD` can do. -/
theorem issue_cases (w : Word) (s : State) :
    (∃ i, decodeWord w = .command i ∧ issue w s = exec i s) ∨
    (∃ why, decodeWord w = .illegal why ∧ issue w s = .next (s.finish .errCmd 0)) := by
  unfold issue
  cases h : decodeWord w with
  | command i => exact .inl ⟨i, rfl, rfl⟩
  | illegal why => exact .inr ⟨why, rfl, rfl⟩

/-- Everything that addressing an engine can do. -/
theorem selectEngine_cases (n : Nat) (s : State) :
    (n = s.engineId ∧ selectEngine n s = .next s) ∨
    (n ≠ s.engineId ∧ ∃ e m, findNumbered n s.peers = some e ∧ s.memoryAt (s.params.memoryOf n) = some m ∧
      selectEngine n s
        = .next { s with
            engineId := n
            eng := e
            peers := replaceNumbered n (s.engineId, s.eng) s.peers
            mem := m
            otherMems := s.memoriesBeside (s.params.memoryOf n) }) ∨
    (n ≠ s.engineId ∧ (findNumbered n s.peers = none ∨ s.memoryAt (s.params.memoryOf n) = none) ∧
      selectEngine n s = .fault (.engineDoesNotExist n)) := by
  unfold selectEngine
  by_cases hn : n = s.engineId
  · exact .inl ⟨hn, if_pos hn⟩
  · rw [if_neg hn]
    cases h : findNumbered n s.peers with
    | none => exact .inr (.inr ⟨hn, .inl rfl, rfl⟩)
    | some e =>
      cases hm : s.memoryAt (s.params.memoryOf n) with
      | none => exact .inr (.inr ⟨hn, .inr rfl, rfl⟩)
      | some m => exact .inr (.inl ⟨hn, e, m, rfl, rfl, rfl⟩)

/-! ### Numbered lists: the other engines and the other data memories -/

section numbered
variable {α : Type}

theorem findNumbered_isSome {n : Nat} {l : List (Nat × α)} :
    (findNumbered n l).isSome = true ↔ n ∈ l.map Prod.fst := by
  induction l with
  | nil => simp [findNumbered]
  | cons p rest ih =>
    obtain ⟨m, e⟩ := p
    by_cases hm : m = n
    · simp [findNumbered, hm]
    · simp only [findNumbered, if_neg hm, ih, List.map_cons, List.mem_cons]
      exact ⟨.inr, fun h => h.resolve_left fun hh => hm hh.symm⟩

/-- The numbers of a list after one of them is replaced by one with a new number. -/
theorem map_fst_replaceNumbered {n : Nat} {l : List (Nat × α)} {e : α}
    (h : findNumbered n l = some e) (entry : Nat × α) :
    ∃ before after, l.map Prod.fst = before ++ n :: after ∧
      (replaceNumbered n entry l).map Prod.fst = before ++ entry.1 :: after := by
  induction l with
  | nil => simp [findNumbered] at h
  | cons p rest ih =>
    obtain ⟨m, e'⟩ := p
    by_cases hm : m = n
    · exact ⟨[], rest.map Prod.fst, by simp [hm], by simp [replaceNumbered, hm]⟩
    · obtain ⟨before, after, h1, h2⟩ := ih (by simpa [findNumbered, hm] using h)
      exact ⟨m :: before, after, by simp [h1], by simp [replaceNumbered, hm, h2]⟩

/-- With numbers that differ, replacing number `n` by one numbered `entry.1` moves nothing else. -/
theorem findNumbered_replaceNumbered {n : Nat} {l : List (Nat × α)} (entry : Nat × α)
    (hnew : entry.1 ∉ l.map Prod.fst) (hdup : (l.map Prod.fst).Nodup) (hn : n ∈ l.map Prod.fst) (x : Nat) :
    findNumbered x (replaceNumbered n entry l)
      = if x = entry.1 then some entry.2 else if x = n then none else findNumbered x l := by
  induction l with
  | nil => simp at hn
  | cons p rest ih =>
    obtain ⟨m, e⟩ := p
    simp only [List.map_cons, List.mem_cons, not_or, List.nodup_cons] at hnew hdup hn
    by_cases hm : m = n
    · subst hm
      simp only [replaceNumbered, if_true]
      obtain ⟨new, enew⟩ := entry
      by_cases hx : x = new
      · simp [findNumbered, hx]
      · by_cases hxm : x = m
        · subst hxm
          have : findNumbered x rest = none := by
            cases hf : findNumbered x rest with
            | none => rfl
            | some e' => exact absurd (findNumbered_isSome.mp (by simp [hf])) hdup.1
          simp [findNumbered, hx, Ne.symm hx, this]
        · simp [findNumbered, hx, hxm, Ne.symm hx, Ne.symm hxm]
    · have hn' : n ∈ rest.map Prod.fst := hn.resolve_left fun h => hm h.symm
      simp only [replaceNumbered, if_neg hm, findNumbered, ih hnew.2 hdup.2 hn']
      by_cases hmx : m = x
      · subst hmx
        simp [Ne.symm hnew.1, hm]
      · simp [hmx]

/-- What is found after every thing is mapped in its place. -/
theorem findNumbered_map {β : Type} (f : Nat → α → β) (n : Nat) (l : List (Nat × α)) :
    findNumbered n (l.map fun p => (p.1, f p.1 p.2)) = (findNumbered n l).map (f n) := by
  induction l with
  | nil => rfl
  | cons p rest ih =>
    obtain ⟨m, x⟩ := p
    by_cases hm : m = n
    · simp [findNumbered, hm]
    · simp [findNumbered, hm, ih]

theorem mem_of_findNumbered {n : Nat} {l : List (Nat × α)} {x : α} (h : findNumbered n l = some x) : (n, x) ∈ l := by
  induction l with
  | nil => simp [findNumbered] at h
  | cons p rest ih =>
    obtain ⟨m, y⟩ := p
    by_cases hm : m = n
    · simp only [findNumbered, hm, if_true, Option.some.injEq] at h
      simp [hm, h]
    · exact List.mem_cons_of_mem _ (ih (by simpa [findNumbered, hm] using h))

theorem mem_of_mem_replaceNumbered {n : Nat} {l : List (Nat × α)} {entry p : Nat × α}
    (h : p ∈ replaceNumbered n entry l) : p = entry ∨ p ∈ l := by
  induction l with
  | nil => simp [replaceNumbered] at h
  | cons q rest ih =>
    obtain ⟨m, y⟩ := q
    by_cases hm : m = n
    · simp only [replaceNumbered, hm, if_true, List.mem_cons] at h ⊢
      exact h.imp_right .inr
    · simp only [replaceNumbered, hm, if_false, List.mem_cons] at h ⊢
      rcases h with h | h
      · exact .inr (.inl h)
      · exact (ih h).imp_right .inr

/-- Number `n` and the one beside the list (number `a`, thing `x`) change places: nothing gets another number. -/
theorem findNumbered_swap {a n : Nat} {l : List (Nat × α)} {x y : α} (hdup : (a :: l.map Prod.fst).Nodup)
    (hn : findNumbered n l = some y) (z : Nat) :
    (if z = n then some y else findNumbered z (replaceNumbered n (a, x) l))
      = if z = a then some x else findNumbered z l := by
  obtain ⟨ha, hl⟩ := List.nodup_cons.mp hdup
  have hmem : n ∈ l.map Prod.fst := findNumbered_isSome.mp (by simp [hn])
  rw [findNumbered_replaceNumbered (a, x) ha hl hmem]
  have hna : n ≠ a := fun h => ha (h ▸ hmem)
  by_cases hz : z = n
  · subst hz; simp [hna, hn]
  · simp [hz]

/-- The numbers are the same numbers after the change of places. -/
theorem numbers_swap {a n : Nat} {l : List (Nat × α)} {x y : α} (hn : findNumbered n l = some y) :
    (n :: (replaceNumbered n (a, x) l).map Prod.fst).Perm (a :: l.map Prod.fst) := by
  obtain ⟨before, after, h1, h2⟩ := map_fst_replaceNumbered hn (a, x)
  rw [h1, h2]
  exact ((List.perm_middle.cons n).trans (.swap a n _)).trans ((List.perm_middle.symm).cons a)

end numbered

/-- Addressing an engine, with numbers that differ: every engine and every data memory keeps its number and its contents. -/
theorem selectEngine_at {n : Nat} {s t : State} (h : selectEngine n s = .next t)
    (he : (s.engineId :: s.peers.map Prod.fst).Nodup) (hm : (s.memoryId :: s.otherMems.map Prod.fst).Nodup) :
    t.engineId = n ∧ (∀ x, t.engineAt x = s.engineAt x) ∧ (∀ x, t.memoryAt x = s.memoryAt x) := by
  rcases selectEngine_cases n s with ⟨hn, hu⟩ | ⟨_, e, m, hf, hfm, hu⟩ | ⟨_, _, hu⟩ <;> rw [hu] at h
  · injection h with h; subst h; exact ⟨hn.symm, fun _ => rfl, fun _ => rfl⟩
  · injection h with h; subst h
    refine ⟨rfl, fun x => findNumbered_swap he hf x, fun x => ?_⟩
    show (if x = s.params.memoryOf n then some m else findNumbered x (s.memoriesBeside (s.params.memoryOf n))) = _
    unfold State.memoriesBeside
    unfold State.memoryAt at hfm ⊢
    by_cases hs : s.params.memoryOf n = s.memoryId
    · rw [if_pos hs] at hfm ⊢
      rw [← hfm, hs]
    · rw [if_neg hs] at hfm ⊢
      exact findNumbered_swap hm hfm x
  · cases h

/-- Addressing an engine does not change which numbers there are. -/
theorem selectEngine_numbers {n : Nat} {s t : State} (h : selectEngine n s = .next t) :
    (t.engineId :: t.peers.map Prod.fst).Perm (s.engineId :: s.peers.map Prod.fst) ∧
      (t.memoryId :: t.otherMems.map Prod.fst).Perm (s.memoryId :: s.otherMems.map Prod.fst) := by
  rcases selectEngine_cases n s with ⟨hn, hu⟩ | ⟨_, e, m, hf, hfm, hu⟩ | ⟨_, _, hu⟩ <;> rw [hu] at h
  · injection h with h; subst h; exact ⟨.refl _, .refl _⟩
  · injection h with h; subst h
    refine ⟨numbers_swap hf, ?_⟩
    show (s.params.memoryOf n :: (s.memoriesBeside (s.params.memoryOf n)).map Prod.fst).Perm _
    unfold State.memoriesBeside
    unfold State.memoryAt at hfm
    by_cases hs : s.params.memoryOf n = s.memoryId
    · rw [if_pos hs, hs]
    · rw [if_neg hs] at hfm ⊢
      exact numbers_swap hfm
  · cases h

/-- Addressing an engine brings no new data memory. -/
theorem selectEngine_memories {n : Nat} {s t : State} (h : selectEngine n s = .next t) :
    ∀ m ∈ t.mem :: t.otherMems.map Prod.snd, m ∈ s.mem :: s.otherMems.map Prod.snd := by
  rcases selectEngine_cases n s with ⟨hn, hu⟩ | ⟨_, e, m, hf, hfm, hu⟩ | ⟨_, _, hu⟩ <;> rw [hu] at h
  · injection h with h; subst h; exact fun _ h => h
  · injection h with h; subst h
    have hin : m ∈ s.mem :: s.otherMems.map Prod.snd := by
      unfold State.memoryAt at hfm
      split at hfm
      · injection hfm with hfm; simp [hfm]
      · exact List.mem_cons_of_mem _ (List.mem_map.mpr ⟨_, mem_of_findNumbered hfm, rfl⟩)
    intro x hx
    rcases List.mem_cons.mp hx with rfl | hx
    · exact hin
    · obtain ⟨p, hp, rfl⟩ := List.mem_map.mp hx
      have hp' : p ∈ s.memoriesBeside (s.params.memoryOf n) := hp
      unfold State.memoriesBeside at hp'
      split at hp'
      · exact List.mem_cons_of_mem _ (List.mem_map.mpr ⟨p, hp', rfl⟩)
      · rcases mem_of_mem_replaceNumbered hp' with rfl | hp'
        · exact List.mem_cons_self
        · exact List.mem_cons_of_mem _ (List.mem_map.mpr ⟨p, hp', rfl⟩)
  · cases h

/-- Everything one step can do: idle while no access waits, else the next access, taken from those that wait. -/
theorem nextAccess_cases (s : State) :
    (s.inbox = [] ∧ nextAccess s = .next s) ∨
    (∃ op rest, s.inbox = op :: rest ∧ nextAccess s = hostStep op { s with inbox := rest }) := by
  unfold nextAccess
  cases h : s.inbox with
  | nil => exact .inl ⟨rfl, rfl⟩
  | cons op rest => exact .inr ⟨op, rest, rfl, rfl⟩

end Sys2Proof.Machine
end

