-- ==== Sys2Proof/Laws/Commands.lean ====
section
/-! SUPPORT. The checks of the commands in the terms of Safety.lean, how each transform command ends, and what the block
loop of a whole command does. -/

namespace Sys2Proof.Machine

open Sys2Proof

theorem exec_crenc (mode : BitVec 2) (macf : Bool) (s : State) :
    exec (.crenc mode macf) s = createTransform .encrypt mode macf s := rfl
theorem exec_crdec (mode : BitVec 2) (macf : Bool) (s : State) :
    exec (.crdec mode macf) s = createTransform .decrypt mode macf s := rfl
theorem exec_xblk (s : State) : exec .xblk s = execXblk s := rfl
theorem exec_xfin (s : State) : exec .xfin s = execXfin s := rfl

/-- A list of checks that all have one code fails with that code or not at all. -/
theorem firstFailure_of_one_code {checks : List (Bool × StatusCode)} {code : StatusCode}
    (h : ∀ c ∈ checks, c.2 = code) (hn : firstFailure checks ≠ none) : firstFailure checks = some code := by
  cases hf : firstFailure checks with
  | none => exact absurd hf hn
  | some c => exact congrArg some (h _ (mem_of_firstFailure hf))

/-- The checks of `CRENC` and `CRDEC` after that of the mode field: every way they end. -/
theorem createChecks_eq (size : Nat) (d : Descriptors) :
    (¬ d.materialLengthsLegal → firstFailure (createChecks size d) = some .errCfg) ∧
    (d.materialLengthsLegal → ¬ d.materialExists size → firstFailure (createChecks size d) = some .errBus) ∧
    (d.materialLengthsLegal → d.materialExists size → firstFailure (createChecks size d) = none) := by
  simp only [createChecks, firstFailure, decide_eq_true_eq, gt_iff_lt, Descriptors.materialLengthsLegal,
    Descriptors.materialExists]
  refine ⟨fun h => ?_, fun h hr => ?_, fun h hr => ?_⟩ <;> split_ifs <;> first | rfl | omega

theorem xblkArgChecks_eq_none (d : Descriptors) : firstFailure (xblkArgChecks d) = none ↔ d.xblkArgsLegal := by
  rw [firstFailure_eq_none]
  simp only [xblkArgChecks, Descriptors.xblkArgsLegal, Descriptors.count, sint_eq_toInt, uint,
    List.forall_mem_cons, decide_eq_false_iff_not, List.not_mem_nil, false_imp_iff, implies_true, and_true]
  omega

theorem xblkArgChecks_eq_errArg {d : Descriptors} (h : ¬ d.xblkArgsLegal) :
    firstFailure (xblkArgChecks d) = some .errArg :=
  firstFailure_of_one_code (by simp [xblkArgChecks]) fun hh => h ((xblkArgChecks_eq_none d).mp hh)

theorem xfinArgChecks_eq_none (b : Binding) (d : Descriptors) :
    firstFailure (xfinArgChecks b d) = none ↔ d.xfinArgsLegal b := by
  rw [firstFailure_eq_none]
  simp only [xfinArgChecks, Descriptors.xfinArgsLegal, Descriptors.count, sint_eq_toInt, uint,
    List.forall_mem_cons, decide_eq_false_iff_not, List.not_mem_nil, false_imp_iff, implies_true, and_true]
  have hb : (b.mode ≠ .ecb ∧ b.macf = false) ↔ ¬ (b.mode = .ecb ∨ b.macf = true) := by
    cases b.macf <;> simp
  rw [hb]
  generalize (b.mode = .ecb ∨ b.macf = true) = q
  rcases Int.lt_trichotomy 0 d.inCnt.toInt with hq | hq | hq
  · have : d.inCnt.toInt ≠ 0 := by omega
    simp only [hq, this, false_and, not_false_eq_true, true_and, true_imp_iff, false_imp_iff]; omega
  · have : d.inCnt.toInt = 0 := by omega
    by_cases hq : q <;> simp [this, hq]
  · have h1 : ¬ (0 < d.inCnt.toInt) := by omega
    have : d.inCnt.toInt ≠ 0 := by omega
    simp only [h1, this, false_and, not_false_eq_true, true_and, false_imp_iff]; omega

theorem xfinArgChecks_eq_errArg {b : Binding} {d : Descriptors} (h : ¬ d.xfinArgsLegal b) :
    firstFailure (xfinArgChecks b d) = some .errArg :=
  firstFailure_of_one_code (by simp [xfinArgChecks]) fun hh => h ((xfinArgChecks_eq_none b d).mp hh)

theorem transformBusChecks_eq_none (size : Nat) (d : Descriptors) :
    firstFailure (transformBusChecks size d) = none ↔ (0 < d.inCnt.toInt → d.rangesExist size) := by
  rw [firstFailure_eq_none]
  simp only [transformBusChecks, Descriptors.rangesExist, Descriptors.count, Descriptors.inStart,
    Descriptors.outStart, sint_eq_toInt, uint, List.forall_mem_cons, decide_eq_false_iff_not, List.not_mem_nil,
    false_imp_iff, implies_true, and_true]
  omega

theorem transformBusChecks_eq_errBus {size : Nat} {d : Descriptors}
    (h : ¬ (0 < d.inCnt.toInt → d.rangesExist size)) : firstFailure (transformBusChecks size d) = some .errBus :=
  firstFailure_of_one_code (by simp [transformBusChecks]) fun hh => h ((transformBusChecks_eq_none size d).mp hh)

section ends
variable {s : State} {b : Binding} (hb : s.eng.binding = some b)
include hb

theorem execXblk_bound :
    execXblk s = commandFrame
      (xblkArgChecks s.eng.desc ++ transformBusChecks s.params.memSize s.eng.desc) (transformAction b) s := by
  unfold execXblk; rw [hb]

theorem execXfin_bound :
    execXfin s = commandFrame
      (xfinArgChecks b s.eng.desc ++ transformBusChecks s.params.memSize s.eng.desc) (transformAction b) s := by
  unfold execXfin; rw [hb]

theorem execXblk_errArg (h : ¬ s.eng.desc.xblkArgsLegal) : execXblk s = .next (s.finish .errArg 0) := by
  rw [execXblk_bound hb]; unfold commandFrame
  rw [firstFailure_append, xblkArgChecks_eq_errArg h]; rfl

theorem execXblk_errBus (h : s.eng.desc.xblkArgsLegal) (hr : ¬ s.eng.desc.rangesExist s.params.memSize) :
    execXblk s = .next (s.finish .errBus 0) := by
  rw [execXblk_bound hb]; unfold commandFrame
  rw [firstFailure_append, (xblkArgChecks_eq_none _).mpr h, transformBusChecks_eq_errBus fun hh => hr (hh h.1)]; rfl

theorem execXblk_ok (h : s.eng.desc.xblkArgsLegal) (hr : s.eng.desc.rangesExist s.params.memSize) :
    execXblk s = .next ((transformAction b s).1.finish .ok s.eng.desc.inCnt) := by
  rw [execXblk_bound hb]; unfold commandFrame
  rw [firstFailure_append, (xblkArgChecks_eq_none _).mpr h, (transformBusChecks_eq_none _ _).mpr fun _ => hr]
  simp only [Option.or, transformAction_count, ofInt_count]

theorem execXfin_errArg (h : ¬ s.eng.desc.xfinArgsLegal b) : execXfin s = .next (s.finish .errArg 0) := by
  rw [execXfin_bound hb]; unfold commandFrame
  rw [firstFailure_append, xfinArgChecks_eq_errArg h]; rfl

theorem execXfin_errBus (h : s.eng.desc.xfinArgsLegal b)
    (hr : ¬ (0 < s.eng.desc.inCnt.toInt → s.eng.desc.rangesExist s.params.memSize)) :
    execXfin s = .next (s.finish .errBus 0) := by
  rw [execXfin_bound hb]; unfold commandFrame
  rw [firstFailure_append, (xfinArgChecks_eq_none _ _).mpr h, transformBusChecks_eq_errBus hr]; rfl

theorem execXfin_ok (h : s.eng.desc.xfinArgsLegal b)
    (hr : 0 < s.eng.desc.inCnt.toInt → s.eng.desc.rangesExist s.params.memSize) :
    execXfin s = .next ((transformAction b s).1.finish .ok s.eng.desc.inCnt) := by
  rw [execXfin_bound hb]; unfold commandFrame
  rw [firstFailure_append, (xfinArgChecks_eq_none _ _).mpr h, (transformBusChecks_eq_none _ _).mpr hr]
  simp only [Option.or, transformAction_count, ofInt_count]

end ends

/-- A count that is not negative is the unsigned value of its register. -/
theorem count_toNat {d : Descriptors} (h : 0 ≤ d.inCnt.toInt) :
    d.count.toNat = d.inCnt.toNat ∧ (d.inCnt.toNat : Int) = d.inCnt.toInt := by
  rw [Descriptors.count, sint_eq_toInt]
  rw [BitVec.toInt_eq_toNat_cond] at *
  split at h <;> split <;> omega

/-- A transform command that ends with `OK` ran its block loop over legal arguments. -/
theorem exec_transform_ok {i : Instr} {s t : State} (hi : i.isTransform) (h : exec i s = .next t)
    (hok : t.eng.status = .ok) :
    ∃ b, s.eng.binding = some b ∧ t = (transformAction b s).1.finish .ok s.eng.desc.inCnt ∧
      0 ≤ s.eng.desc.inCnt.toInt ∧ s.eng.desc.inCnt.toInt % 8 = 0 ∧
      (0 < s.eng.desc.inCnt.toInt → s.eng.desc.xblkArgsLegal ∧ s.eng.desc.rangesExist s.params.memSize) := by
  rcases hi with rfl | rfl
  · have h' : execXblk s = .next t := h
    rcases execXblk_cases s with ⟨_, hu⟩ | ⟨_, c, _, hc, hu⟩ | ⟨b, hb, hf, hu⟩
    · rw [hu] at h'; injection h' with h'; subst h'; cases hok
    · rw [hu] at h'; injection h' with h'; subst h'; rcases hc with rfl | rfl <;> cases hok
    · rw [hu] at h'; injection h' with h'
      rw [firstFailure_append, Option.or_eq_none_iff, xblkArgChecks_eq_none, transformBusChecks_eq_none] at hf
      exact ⟨b, hb, h'.symm, by have := hf.1.1; omega, hf.1.2.1, fun h0 => ⟨hf.1, hf.2 h0⟩⟩
  · have h' : execXfin s = .next t := h
    rcases execXfin_cases s with ⟨_, hu⟩ | ⟨_, c, _, hc, hu⟩ | ⟨b, hb, hf, hu⟩
    · rw [hu] at h'; injection h' with h'; subst h'; cases hok
    · rw [hu] at h'; injection h' with h'; subst h'; rcases hc with rfl | rfl <;> cases hok
    · rw [hu] at h'; injection h' with h'
      rw [firstFailure_append, Option.or_eq_none_iff, xfinArgChecks_eq_none, transformBusChecks_eq_none] at hf
      obtain ⟨⟨h0, h1, h2, h8, _, ho⟩, hr⟩ := hf
      exact ⟨b, hb, h'.symm, h0, h8, fun hp => ⟨⟨hp, h8, h1, (ho hp).1, h2, (ho hp).2⟩, hr hp⟩⟩

/-- What the block loop of a command changes. -/
theorem transformAction_frame (b : Binding) (s : State) :
    (transformAction b s).1
      = { s with
          mem := (transformAction b s).1.mem
          eng := { s.eng with
            fb := (transformAction b s).1.eng.fb
            n1 := (transformAction b s).1.eng.n1
            n2 := (transformAction b s).1.eng.n2 } } := by
  simp only [transformAction]
  rw [← blockLoop_frame]

/-- The block loop of a command writes no byte outside the output range. -/
theorem transformAction_outside (b : Binding) {s : State} (hm : Memory.wf s.mem = true)
    (h0 : 0 ≤ s.eng.desc.inCnt.toInt) (h8 : s.eng.desc.inCnt.toInt % 8 = 0)
    (ho : 0 < s.eng.desc.inCnt.toInt → 0 ≤ s.eng.desc.outOff.toInt) {a : Nat}
    (ha : (a : Int) < s.eng.desc.outStart ∨ s.eng.desc.outStart + s.eng.desc.inCnt.toInt ≤ a) :
    Memory.read (transformAction b s).1.mem a = Memory.read s.mem a := by
  have hl := count_toNat h0
  simp only [transformAction, hl.1]
  by_cases hz : 0 < s.eng.desc.inCnt.toInt
  · refine blockLoop_outside _ _ _ _ _ hm ?_
    have := ho hz
    have : 0 ≤ s.eng.desc.outStart := by simp only [Descriptors.outStart, sint_eq_toInt, uint]; omega
    omega
  · rw [show s.eng.desc.inCnt.toNat = 0 by omega]; rfl

end Sys2Proof.Machine
end

