-- ==== Sys2Proof/Laws/Decode.lean ====
section
/-! SUPPORT. The fields of a packed word are the ones it was packed from, and a word is packed from its fields. -/

namespace Sys2Proof

theorem getLsbD_packWord (rsv : BitVec 21) (macf : Bool) (mode : BitVec 2) (op : BitVec 8) (i : Nat) :
    (packWord rsv macf mode op).getLsbD i
      = if i < 8 then op.getLsbD i
        else if i < 10 then mode.getLsbD (i - 8)
        else if i < 11 then macf else rsv.getLsbD (i - 11) := by
  simp only [packWord, BitVec.getLsbD_append, BitVec.getLsbD_ofBool]
  by_cases h1 : i < 8
  · simp [h1]
  · by_cases h2 : i < 10
    · simp [h1, h2, show i - 8 < 2 by omega]
    · by_cases h3 : i < 11
      · simp [show i = 10 by omega]
      · simp [h1, h2, h3, show ¬ i - 8 < 2 by omega, show ¬ i - 8 - 2 < 1 by omega, show i - 8 - 2 - 1 = i - 11 by omega]

@[simp] theorem fieldOp_packWord (rsv : BitVec 21) (macf : Bool) (mode : BitVec 2) (op : BitVec 8) :
    fieldOp (packWord rsv macf mode op) = op := by
  apply BitVec.eq_of_getLsbD_eq
  intro i hi
  simp [fieldOp, getLsbD_packWord, hi]

@[simp] theorem fieldMode_packWord (rsv : BitVec 21) (macf : Bool) (mode : BitVec 2) (op : BitVec 8) :
    fieldMode (packWord rsv macf mode op) = mode := by
  apply BitVec.eq_of_getLsbD_eq
  intro i hi
  simp [fieldMode, getLsbD_packWord, hi, show 8 + i < 10 by omega]

@[simp] theorem fieldMacf_packWord (rsv : BitVec 21) (macf : Bool) (mode : BitVec 2) (op : BitVec 8) :
    fieldMacf (packWord rsv macf mode op) = macf := by
  unfold fieldMacf
  rw [getLsbD_packWord]
  simp

@[simp] theorem fieldRsv_packWord (rsv : BitVec 21) (macf : Bool) (mode : BitVec 2) (op : BitVec 8) :
    fieldRsv (packWord rsv macf mode op) = rsv := by
  apply BitVec.eq_of_getLsbD_eq
  intro i hi
  simp [fieldRsv, getLsbD_packWord, hi, show ¬ 11 + i < 8 by omega, show ¬ 11 + i < 10 by omega]

/-- A word is packed from its four fields. -/
theorem packWord_fields (w : Word) : packWord (fieldRsv w) (fieldMacf w) (fieldMode w) (fieldOp w) = w := by
  apply BitVec.eq_of_getLsbD_eq
  intro i hi
  rw [getLsbD_packWord]
  by_cases h1 : i < 8
  · simp [h1, fieldOp]
  · by_cases h2 : i < 10
    · simp [h1, h2, fieldMode, show i - 8 < 2 by omega, show 8 + (i - 8) = i by omega]
    · by_cases h3 : i < 11
      · simp [show i = 10 by omega, fieldMacf]
      · simp [h1, h2, h3, fieldRsv, show i - 11 < 21 by omega, show 11 + (i - 11) = i by omega]

@[simp] theorem unlessReserved_eq_command {bad : Bool} {i j : Instr} :
    unlessReserved bad i = .command j ↔ bad = false ∧ i = j := by
  cases bad <;> simp [unlessReserved]

end Sys2Proof
end

