-- ==== Sys2Proof/Laws/ModeEngine.lean ====
section
/-! SUPPORT. The words of an advanced register, and the block step, one equation for each mode and direction, with every
field of the engine written out. Proofs rewrite with these: unfolding a block step by `rfl` can make the kernel run the 32 rounds on variables. -/

namespace Sys2Proof.Machine

open Sys2Proof

theorem toNat_advanceHi (hi : Word) :
    (advanceHi hi).toNat = (hi.toNat + 0x01010104 - 1) % 0xFFFFFFFF + 1 := by
  rw [advanceHi, BitVec.toNat_ofNat]
  omega

theorem toNat_advanceLo (lo : Word) : (advanceLo lo).toNat = (lo.toNat + 0x01010101) % 2 ^ 32 := by
  rw [advanceLo, BitVec.toNat_add]
  rfl

@[simp] theorem loWord_advance (fb : Block) : loWord (advance fb) = advanceLo (loWord fb) := by
  rw [advance, loWord_blockOf]

@[simp] theorem hiWord_advance (fb : Block) : hiWord (advance fb) = advanceHi (hiWord fb) := by
  rw [advance, hiWord_blockOf]

variable (macf : Bool) (x : Block) (e : Engine)

theorem blockStep_ecb_encrypt :
    e.blockStep ⟨.encrypt, .ecb, macf⟩ x
      = ({ e with n1 := (fencHalves e.k e.t x).n1, n2 := (fencHalves e.k e.t x).n2 }, fenc e.k e.t x) := (rfl)

theorem blockStep_ecb_decrypt :
    e.blockStep ⟨.decrypt, .ecb, macf⟩ x
      = ({ e with n1 := (fdecHalves e.k e.t x).n1, n2 := (fdecHalves e.k e.t x).n2 }, fdec e.k e.t x) := (rfl)

theorem blockStep_ofb (dir : Direction) :
    e.blockStep ⟨dir, .ofb, macf⟩ x
      = ({ e with
            fb := advance e.fb
            n1 := (fencHalves e.k e.t (advance e.fb)).n1
            n2 := (fencHalves e.k e.t (advance e.fb)).n2 },
          xorBlock x (fenc e.k e.t (advance e.fb))) := by cases dir <;> exact (rfl)

theorem blockStep_cfb_encrypt :
    e.blockStep ⟨.encrypt, .cfb, macf⟩ x
      = ({ e with
            fb := fenc e.k e.t (xorBlock x e.fb)
            n1 := (fencHalves e.k e.t (xorBlock x e.fb)).n1
            n2 := (fencHalves e.k e.t (xorBlock x e.fb)).n2 },
          xorBlock x e.fb) := (rfl)

theorem blockStep_cfb_decrypt :
    e.blockStep ⟨.decrypt, .cfb, macf⟩ x
      = ({ e with
            fb := fenc e.k e.t x
            n1 := (fencHalves e.k e.t x).n1
            n2 := (fencHalves e.k e.t x).n2 },
          xorBlock x e.fb) := (rfl)

end Sys2Proof.Machine
end

