-- ==== Sys2Proof/Laws/PerInstr.lean ====
section
/-! SUPPORT. What is said of every instruction as syntax, one lemma a constructor: its encoding has the fixed bits of its row
of spec/opcode_table.json, whatever its fields hold. -/

namespace Sys2Proof.Laws

open Sys2Proof

namespace EncodingMatchesRow

/-- The mask of the instruction's row. -/
def rowMask : Instr → Word
  | .crenc _ _ => 0xFFFFF8FF#32
  | .crdec _ _ => 0xFFFFF8FF#32
  | .xblk => 0xFFFFFFFF#32
  | .xfin => 0xFFFFFFFF#32
  | .disp => 0xFFFFFFFF#32

/-- The match value of the instruction's row. -/
def rowMatch : Instr → Word
  | .crenc _ _ => 0x00000001#32
  | .crdec _ _ => 0x00000002#32
  | .xblk => 0x00000010#32
  | .xfin => 0x00000011#32
  | .disp => 0x0000001F#32

/-- The encoding agrees with the row's match value wherever the row's mask is set. -/
def Statement (i : Instr) : Prop := encode i &&& rowMask i = rowMatch i

theorem crenc (mode : BitVec 2) (macf : Bool) : Statement (.crenc mode macf) := by
  revert mode macf; unfold Statement; decide

theorem crdec (mode : BitVec 2) (macf : Bool) : Statement (.crdec mode macf) := by
  revert mode macf; unfold Statement; decide

theorem xblk : Statement .xblk := by unfold Statement; decide

theorem xfin : Statement .xfin := by unfold Statement; decide

theorem disp : Statement .disp := by unfold Statement; decide

end EncodingMatchesRow

end Sys2Proof.Laws
end

