-- ==== Sys2Proof/Laws/Rounds.lean ====
section
/-! SUPPORT. Rounds one after the other: what a list of rounds does is what its parts do, and of the round number only its
parity counts. -/

namespace Sys2Proof.Machine

open Sys2Proof

variable (k : KeyWords) (t : Tables)

theorem roundStep_even {r : Nat} (hr : r % 2 = 0) (idx : Fin 8) (h : Halves) :
    roundStep k t r idx h = ⟨h.n1, h.n2 ^^^ roundF t (h.n1 + k[idx])⟩ := by simp [roundStep, hr]

theorem roundStep_odd {r : Nat} (hr : r % 2 = 1) (idx : Fin 8) (h : Halves) :
    roundStep k t r idx h = ⟨h.n1 ^^^ roundF t (h.n2 + k[idx]), h.n2⟩ := by simp [roundStep, hr]

theorem roundStep_parity {r r' : Nat} (hr : r % 2 = r' % 2) (idx : Fin 8) (h : Halves) :
    roundStep k t r idx h = roundStep k t r' idx h := by simp [roundStep, hr]

theorem runRounds_parity {r r' : Nat} (hr : r % 2 = r' % 2) (l : List (Fin 8)) (h : Halves) :
    runRounds k t r l h = runRounds k t r' l h := by
  induction l generalizing r r' h with
  | nil => rfl
  | cons x xs ih =>
    simp only [runRounds, roundStep_parity k t hr]
    exact ih (by omega) _

theorem runRounds_append (r : Nat) (a b : List (Fin 8)) (h : Halves) :
    runRounds k t r (a ++ b) h = runRounds k t (r + a.length) b (runRounds k t r a h) := by
  induction a generalizing r h with
  | nil => rfl
  | cons x xs ih =>
    simp only [List.cons_append, runRounds, ih, List.length_cons]
    congr 1
    omega

/-- A round whose halves are exchanged is the round of the other parity. -/
theorem roundStep_swap (r : Nat) (idx : Fin 8) (h : Halves) :
    roundStep k t (r + 1) idx ⟨h.n2, h.n1⟩
      = ⟨(roundStep k t r idx h).n2, (roundStep k t r idx h).n1⟩ := by
  rcases Nat.mod_two_eq_zero_or_one r with hr | hr
  · rw [roundStep_even k t hr, roundStep_odd k t (by omega)]
  · rw [roundStep_odd k t hr, roundStep_even k t (by omega)]

end Sys2Proof.Machine
end

