-- ==== Sys2Proof/Machine/HostNotation.lean ====
section
/-! DEFINITION. The host notation (30_encoding.md R97) and its pseudo-instructions (R98): each line of a host program as the
accesses it stands for. -/

namespace Sys2Proof

/-- The number of a register (10_state.md R21). -/
def RegName.number : RegName → Nat
  | .cmd => 0
  | .status => 1
  | .result => 2
  | .config => 3
  | .keyBase => 4
  | .keyLen => 5
  | .ivBase => 6
  | .ivLen => 7
  | .sboxBase => 8
  | .sboxLen => 9
  | .inBase => 10
  | .inSize => 11
  | .inOff => 12
  | .inCnt => 13
  | .outBase => 14
  | .outSize => 15
  | .outOff => 16

/-- The byte offset of a register from the engine's register base (10_state.md R21). -/
def RegName.offset (r : RegName) : Nat := 4 * r.number

end Sys2Proof

namespace Sys2Proof.Machine

open Sys2Proof

/-- `WR NAME, value`; a negative value is stored as two's complement. -/
def wr (r : RegName) (v : Int) : HostOp := .writeReg r.number (BitVec.ofInt 32 v)

/-- `RD NAME`. -/
def rd (r : RegName) : HostOp := .readReg r.number

/-- A command line: the write of its word to `CMD`. -/
def commandLine (i : Instr) : HostOp := .writeReg 0 (encode i)

/-- `SETKEY a`. -/
def setKey (a : Int) : List HostOp := [wr .keyBase a, wr .keyLen 32]

/-- `SETIV a`. -/
def setIv (a : Int) : List HostOp := [wr .ivBase a, wr .ivLen 8]

/-- `SETSBOX a`. -/
def setSbox (a : Int) : List HostOp := [wr .sboxBase a, wr .sboxLen 64]

/-- `SETIN a, size, off, cnt`. -/
def setIn (a size off cnt : Int) : List HostOp := [wr .inBase a, wr .inSize size, wr .inOff off, wr .inCnt cnt]

/-- `SETOUT a, size, off`. -/
def setOut (a size off : Int) : List HostOp := [wr .outBase a, wr .outSize size, wr .outOff off]

/-- `CREATE_ENCRYPTOR mode, k, v, s`. -/
def createEncryptor (mode : BitVec 2) (k v s : Int) : List HostOp :=
  setKey k ++ setIv v ++ setSbox s ++ [commandLine (.crenc mode false)]

/-- `CREATE_DECRYPTOR mode, k, v, s`. -/
def createDecryptor (mode : BitVec 2) (k v s : Int) : List HostOp :=
  setKey k ++ setIv v ++ setSbox s ++ [commandLine (.crdec mode false)]

end Sys2Proof.Machine
end

