-- ==== Sys2Proof/Tests/Slice0.lean ====
section
/-! SUPPORT. Tests: ill-formed data is refused, words written out from 30_encoding.md R91 and R99 decode to what they stand
for, single steps against the vectors of 95_test_vectors.md, and for every statement with hypotheses a witness that they can
hold together. -/

namespace Sys2Proof.Tests

open Sys2Proof Sys2Proof.Machine

/-! ### WellFormed: one ill-formed term for each check, and a well-formed one -/

theorem test_wf_memory_rising : Memory.wf [(4, 1), (4, 2)] = false := by decide
theorem test_wf_memory_no_unlisted : Memory.wf [(4, 0)] = false := by decide
theorem test_wf_memory_good : Memory.wf [(4, 1), (5, 2)] = true := by decide
theorem test_wf_memory_within : Memory.within 4 [(4, 1)] = false := by decide
theorem test_wf_params_no_memory : Params.wf { defaultParams with memSize := 0 } = false := by decide
theorem test_wf_params_too_large : Params.wf { defaultParams with memSize := 2 ^ 32 + 1 } = false := by decide
theorem test_wf_params_m0_form : Params.wf { defaultParams with m0 := [(0, 0)] } = false := by decide
theorem test_wf_params_m0_outside :
    Params.wf { defaultParams with memSize := 0x200, m0 := [(0x200, 1)] } = false := by decide
theorem test_wf_params_no_engine : Params.wf { defaultParams with nInst := 0 } = false := by decide
theorem test_wf_params_engine_without_memory :
    Params.wf { defaultParams with nInst := 2, memoryIds := [0] } = false := by decide
theorem test_wf_params_good : Params.wf defaultParams = true := by decide
theorem test_wf_host_write_past_end :
    HostOp.wf { defaultParams with memSize := 0x200 } (.writeMem 0x1FF [1, 2]) = false := by decide
theorem test_wf_host_read_past_end :
    HostOp.wf { defaultParams with memSize := 0x200 } (.readMem 0x1F9 8) = false := by decide
theorem test_wf_host_no_engine : HostOp.wf defaultParams (.select 1) = false := by decide
theorem test_wf_host_good : HostOp.wf { defaultParams with memSize := 0x200 } (.readMem 0x1F8 8) = true := by decide

/-! ### Decoding (30_encoding.md R91, R99): RSV, MACF, MODE, OP written out bit by bit -/

theorem test_decode_crenc_cfb_mac :
    decodeWord 0b000000000000000000000_1_10_00000001#32 = .command (.crenc 2 true) := by decide
theorem test_decode_crdec_ofb_mac :
    decodeWord 0b000000000000000000000_1_01_00000010#32 = .command (.crdec 1 true) := by decide
theorem test_decode_crenc_unsupported_mode :
    decodeWord 0b000000000000000000000_0_11_00000001#32 = .command (.crenc 3 false) := by decide
theorem test_decode_xblk : decodeWord 0b000000000000000000000_0_00_00010000#32 = .command .xblk := by decide
theorem test_decode_xfin : decodeWord 0b000000000000000000000_0_00_00010001#32 = .command .xfin := by decide
theorem test_decode_disp : decodeWord 0b000000000000000000000_0_00_00011111#32 = .command .disp := by decide
theorem test_decode_mode_on_xblk : decodeWord 0x00000110#32 = .illegal .reservedBits := by decide
theorem test_decode_reserved_bit : decodeWord 0x00000801#32 = .illegal .reservedBits := by decide
theorem test_decode_zero : decodeWord 0#32 = .illegal .unknownOpcode := by decide
theorem test_encode_crenc_cfb_mac : encode (.crenc 2 true) = 0x00000601#32 := by decide
theorem test_table_word : decodeTableWord 32 0x502 = some (.crdec 1 true) := by decide

/-! ### The data of 95_test_vectors.md -/

/-- `n` bytes, written as one hexadecimal number, byte 0 first. -/
def hexBytes (n v : Nat) : List Byte := (List.range n).map fun i => BitVec.ofNat 8 (v / 256 ^ (n - 1 - i))

/-- A block written as one hexadecimal number, byte 0 first. -/
def hexBlock (v : Nat) : Block := tabulate fun i => BitVec.ofNat 8 (v / 256 ^ (7 - i.val))

/-- `TSMAT`. -/
def tsMat : List Byte :=
  hexBytes 32 0x1032547698BADCFE41A70D63C92F85EB721CB650FA943ED8A3816F4D2B09E7C5
    ++ hexBytes 32 0xD4F6183A5C7E90B2056BC1278DE349AF36D07A14BE58F29C67452301EFCDAB89

/-- `KEYA` as the engine takes it. -/
def keyA : Bytes 32 := tabulate fun i => BitVec.ofNat 8 i.val

/-- `TSMAT` as the engine takes it. -/
def tsBytes : Bytes 64 := tabulate fun i => tsMat.getD i.val 0

/-- The tables of `TS` under the default parameters. -/
def tsTables : Tables := sboxBuild defaultPairing (sboxUnpack .lowFirst tsBytes)

/-- The memory of part 3 of 95_test_vectors.md, with `block` at `0x100`. -/
def vectorMem (block : List Byte) : Memory :=
  Memory.writeBytes (Memory.writeBytes (Memory.writeBytes (Memory.writeBytes [] 0x100 block) 0x40 tsMat)
    0x20 (hexBytes 8 0x0102030405060708)) 0 keyA.toList

/-- The registers of part 3, a transform of `cnt` bytes from `0x100` to `out`. -/
def vectorDesc (cnt out : Word) : Descriptors :=
  { keyBase := 0, keyLen := 32, ivBase := 0x20, ivLen := 8, sboxBase := 0x40, sboxLen := 64
    inBase := 0x100, inSize := 24, inOff := 0, inCnt := cnt, outBase := out, outSize := 24, outOff := 0 }

/-- A machine with `MEMSIZE = 0x200`, the given memory and one engine. -/
def machine (mem : Memory) (e : Engine) : State :=
  { State.reset with params := { defaultParams with memSize := 0x200 }, mem := mem, eng := e }

/-- An unbound engine with the registers of part 3. -/
def unboundEngine (d : Descriptors) : Engine := { Engine.reset with desc := d }

/-- An engine bound over the key and tables of part 3. -/
def boundEngine (dir : Direction) (m : Mode) (macf : Bool) (fb : Block) (d : Descriptors) : Engine :=
  { Engine.reset with
    desc := d, binding := some ⟨dir, m, macf⟩, k := keySched keyA, t := tsTables, fb := fb }

/-- The answer is a next state with the property. -/
def nextWith (a : Answer) (p : State → Bool) : Bool :=
  match a with
  | .next t => p t
  | _ => false

/-! ### Operations -/

theorem test_key_schedule : keySched keyA
    = #v[0x03020100#32, 0x07060504#32, 0x0B0A0908#32, 0x0F0E0D0C#32,
        0x13121110#32, 0x17161514#32, 0x1B1A1918#32, 0x1F1E1D1C#32] := by decide

theorem test_tables : (tsTables[0])[0xFF] = 0xEF#8 ∧ (tsTables[1])[0x5A] = 0x64#8 ∧ (tsTables[3])[0x10] = 0x66#8 := by
  decide +kernel

theorem test_round_function : roundF tsTables 0x12345678#32 = 0x43034303#32 := by decide +kernel

theorem test_fenc : fenc (keySched keyA) tsTables (hexBlock 0x0123456789ABCDEF) = hexBlock 0x5BB732460958AC29 := by
  decide +kernel

theorem test_fdec : fdec (keySched keyA) tsTables (hexBlock 0x0123456789ABCDEF) = hexBlock 0xE4F0F3F1C17B8AFE := by
  decide +kernel

theorem test_high_first :
    fenc (keySched keyA) (sboxBuild defaultPairing (sboxUnpack .highFirst tsBytes)) (hexBlock 0x0123456789ABCDEF)
      = hexBlock 0x6957D04DD6AE4E43 := by decide +kernel

theorem test_advance_reaches_all_ones : advance (hexBlock 0xFEFEFEFEFBFEFEFE) = hexBlock 0xFFFFFFFFFFFFFFFF := by
  decide +kernel

theorem test_advance_skips_zero : advance (hexBlock 0xFFFEFEFEFCFEFEFE) = hexBlock 0x0000000001000000 := by
  decide +kernel

/-! ### One step of each command -/

/-- V-CMD-6. -/
theorem test_crenc_binds :
    nextWith (exec (.crenc 0 false) (machine (vectorMem []) (unboundEngine (vectorDesc 0 0)))) (fun t =>
      t.eng.readReg 1 == 0#32 && t.eng.readReg 3 == 1#32 && t.eng.fb == hexBlock 0x48F61FCA90661498
        && (t.eng.k)[7] == 0x1F1E1D1C#32 && (t.eng.t[1])[0x5A] == 0x64#8) = true := by decide +kernel

/-- V-CMD-5. -/
theorem test_crenc_unsupported_mode :
    nextWith (exec (.crenc 3 false) (machine [] (unboundEngine (vectorDesc 0 0)))) (fun t =>
      t.eng.readReg 1 == 1#32 && t.eng.readReg 3 == 0#32) = true := by decide +kernel

/-- V-CMD-31: the instance before it is replaced and the register seeded again. -/
theorem test_crdec_replaces :
    nextWith (exec (.crdec 2 false)
      (machine (vectorMem []) (boundEngine .encrypt .ofb false (hexBlock 0x49F720CB94671599) (vectorDesc 0 0)))) (fun t =>
      t.eng.readReg 1 == 0#32 && t.eng.readReg 3 == 0x0B#32 && t.eng.fb == hexBlock 0x48F61FCA90661498) = true := by
  decide +kernel

/-- V-CMD-14: `0x1C1 + 64` passes `MEMSIZE`. -/
theorem test_crdec_bus :
    nextWith (exec (.crdec 0 false) (machine [] (unboundEngine { vectorDesc 0 0 with sboxBase := 0x1C1 }))) (fun t =>
      t.eng.readReg 1 == 5#32) = true := by decide +kernel

/-- P2, step 4: OFB advances first and keeps the counter, not the keystream. -/
theorem test_xblk_ofb :
    nextWith (exec .xblk
      (machine (vectorMem (hexBytes 8 0x0123456789ABCDEF))
        (boundEngine .encrypt .ofb false (hexBlock 0x48F61FCA90661498) (vectorDesc 8 0x180)))) (fun t =>
      t.eng.readReg 1 == 0#32 && t.eng.readReg 2 == 8#32 && t.eng.fb == hexBlock 0x49F720CB94671599
        && Memory.readBytes t.mem 0x180 8 == hexBlock 0xBC5DCFBCCFE9C809) = true := by decide +kernel

/-- P5: input and output overlap by a block, the second block reads what the first wrote. -/
theorem test_xblk_overlap :
    nextWith (exec .xblk
      (machine (vectorMem (hexBytes 16 0x0123456789ABCDEF0123456789ABCDEF))
        (boundEngine .encrypt .ecb false (hexBlock 0) (vectorDesc 16 0x108)))) (fun t =>
      Memory.readBytes t.mem 0x100 8 == hexBlock 0x0123456789ABCDEF
        && Memory.readBytes t.mem 0x108 8 == hexBlock 0x5BB732460958AC29
        && Memory.readBytes t.mem 0x110 8 == hexBlock 0xEE22722773D312DE) = true := by decide +kernel

/-- P3, step 11: CFB decryption feeds the ciphertext back, through `FENC`. -/
theorem test_xfin_cfb_decrypt :
    nextWith (exec .xfin
      (machine (vectorMem (hexBytes 8 0xA9FE6EAD7C8CEAED))
        (boundEngine .decrypt .cfb false (hexBlock 0xA9FE6EAD7C8CEAED) (vectorDesc 8 0x1C0)))) (fun t =>
      t.eng.readReg 2 == 8#32 && t.eng.fb == hexBlock 0x114127A5A33A887E
        && Memory.readBytes t.mem 0x1C0 8 == hexBlock 0) = true := by decide +kernel

/-- V-CMD-7 and V-CMD-8: no bytes in OFB, without and with the MAC flag. -/
theorem test_xfin_zero_length :
    nextWith (exec .xfin (machine [] (boundEngine .encrypt .ofb false (hexBlock 0) (vectorDesc 0 0x180)))) (fun t =>
      t.eng.readReg 1 == 2#32) = true ∧
    nextWith (exec .xfin (machine [] (boundEngine .encrypt .ofb true (hexBlock 0) (vectorDesc 0 0x180)))) (fun t =>
      t.eng.readReg 1 == 0#32 && t.eng.readReg 2 == 0#32) = true := by decide +kernel

/-- V-CMD-28. -/
theorem test_disp :
    nextWith (exec .disp (machine [(3, 1)] (boundEngine .encrypt .cfb false (hexBlock 5) (vectorDesc 8 0x180)))) (fun t =>
      t.eng.readReg 1 == 0#32 && t.eng.readReg 3 == 0#32 && t.eng.k == Vector.replicate 8 0#32
        && t.eng.fb == hexBlock 0 && Memory.read t.mem 3 == 1#8) = true := by decide +kernel

/-- Part 3, register access: `RD` at number 17 reads 0 and `WR STATUS` is ignored. -/
theorem test_register_access :
    (unboundEngine (vectorDesc 8 0)).readReg 17 = 0#32 ∧
    nextWith (step { machine [] (unboundEngine (vectorDesc 8 0)) with inbox := [wr .status (-1)] }) (fun t =>
      t.eng.readReg 1 == 0#32) = true ∧
    nextWith (step { machine [] (unboundEngine (vectorDesc 8 0)) with inbox := [wr .inOff (-1)] }) (fun t =>
      t.eng.readReg 12 == 0xFFFFFFFF#32) = true := by decide +kernel

/-- The first instruction after reset: `XBLK` while unbound (V-CMD-1). -/
theorem test_first_instruction :
    nextWith (step (State.reset.withFetchWord 32 0x10)) (fun t =>
      t.eng.readReg 1 == 3#32 && t.eng.readReg 2 == 0#32 && t.inbox == []) = true := by decide +kernel

/-! ### Witnesses: for each statement with hypotheses, data that meets all of them, at the boundaries of its clauses

The engine of the witnesses holds zero key words and tables; the states that a command leaves are given by the laws of
Laws/Commands.lean, so that no witness runs a round. -/

/-- A machine with `MEMSIZE = 0x200` and an engine bound as `b`, registers `d`. -/
def boundMachine (b : Binding) (d : Descriptors) : State := machine [] { Engine.reset with desc := d, binding := some b }

/-- 8 bytes from `0x1F8`, the end of the memory, in place: every bound is met exactly. -/
def edgeDesc : Descriptors :=
  { vectorDesc 8 0x1F8 with inBase := 0x1F8, inSize := 8, outSize := 8 }

theorem edge_xblkArgsLegal : edgeDesc.xblkArgsLegal := by unfold Descriptors.xblkArgsLegal; decide
theorem edge_xfinArgsLegal (b : Binding) : edgeDesc.xfinArgsLegal b := by
  unfold Descriptors.xfinArgsLegal
  exact ⟨by decide, by decide, by decide, by decide, fun h => absurd h (by decide), fun _ => by decide⟩
theorem edge_rangesExist : edgeDesc.rangesExist 0x200 := by unfold Descriptors.rangesExist; decide

/-- What `XBLK` leaves of the machine of the witnesses. -/
theorem edge_xblk (b : Binding) :
    exec .xblk (boundMachine b edgeDesc)
      = .next ((transformAction b (boundMachine b edgeDesc)).1.finish .ok (boundMachine b edgeDesc).eng.desc.inCnt) := by
  show execXblk (boundMachine b edgeDesc) = _
  exact execXblk_ok (s := boundMachine b edgeDesc) (b := b) rfl edge_xblkArgsLegal edge_rangesExist

/-- What `XFIN` leaves of the machine of the witnesses. -/
theorem edge_xfin (b : Binding) :
    exec .xfin (boundMachine b edgeDesc)
      = .next ((transformAction b (boundMachine b edgeDesc)).1.finish .ok (boundMachine b edgeDesc).eng.desc.inCnt) := by
  show execXfin (boundMachine b edgeDesc) = _
  exact execXfin_ok (s := boundMachine b edgeDesc) (b := b) rfl (edge_xfinArgsLegal b) fun _ => edge_rangesExist

/-- Material in which every range ends exactly at `MEMSIZE`. -/
def edgeMaterial : Descriptors :=
  { vectorDesc 0 0 with keyBase := 0x1E0, sboxBase := 0x1C0, ivBase := 0x1F8 }

theorem edge_materialLengthsLegal : edgeMaterial.materialLengthsLegal := by
  unfold Descriptors.materialLengthsLegal; decide
theorem edge_materialExists : edgeMaterial.materialExists 0x200 := by unfold Descriptors.materialExists; decide

/-- What `CRENC` leaves of a machine whose material ends at `MEMSIZE`. -/
theorem edge_crenc (m : Mode) (macf : Bool) :
    exec (.crenc (modeCode m) macf) (machine [] (unboundEngine edgeMaterial))
      = .next ((createAction ⟨.encrypt, m, macf⟩ (machine [] (unboundEngine edgeMaterial))).1.finish .ok 0) := by
  show createTransform .encrypt (modeCode m) macf _ = _
  have hm : modeOfField (modeCode m) = some m := by cases m <;> rfl
  unfold createTransform
  rw [hm]
  simp only [commandFrame]
  rw [show (machine [] (unboundEngine edgeMaterial)).params.memSize = 0x200 from rfl,
    show (machine [] (unboundEngine edgeMaterial)).eng.desc = edgeMaterial from rfl,
    (createChecks_eq _ _).2.2 edge_materialLengthsLegal edge_materialExists]
  rfl

theorem witness_DecodeAndEncodeAgree : decodeWord 0x00000301#32 = .command (.crenc 3 false) := by decide

theorem witness_DecodeFollowsOpcodeMap_illegal : ∃ why, decodeWord 0x00000800#32 = .illegal why := ⟨_, rfl⟩

theorem witness_StepRunsDecodedCommand :
    ({ State.reset with inbox := [.writeReg 0 0x601#32, .reset] } : State).inbox = .writeReg 0 0x601#32 :: [.reset] ∧
      decodeWord 0x601#32 = .command (.crenc 2 true) := ⟨rfl, by decide⟩

theorem witness_IllegalWordEndsWithErrCmd :
    ({ State.reset with inbox := [.writeReg 0 0x801#32] } : State).inbox = .writeReg 0 0x801#32 :: [] ∧
      0x801#32 &&& 0xFFFFF8FF#32 ≠ 0x00000001#32 ∧ 0x801#32 &&& 0xFFFFF8FF#32 ≠ 0x00000002#32 ∧
      0x801#32 ≠ 0x00000010#32 ∧ 0x801#32 ≠ 0x00000011#32 ∧ 0x801#32 ≠ 0x0000001F#32 := by decide

theorem witness_IdleStepRetainsState : State.reset.inbox = [] := rfl

/-- A read-only register, the first and the last descriptor register, and the first number above 16. -/
theorem witness_HostRegisterAccess (n : Nat) (hn : n = 3 ∨ n = 4 ∨ n = 16 ∨ n = 17) :
    ({ State.reset with inbox := [.writeReg n 7, .readReg n] } : State).inbox = .writeReg n 7 :: [.readReg n] ∧ n ≠ 0 :=
  ⟨rfl, by omega⟩

theorem witness_StatusAndConfigWords_bound :
    (boundEngine .decrypt .cfb true (hexBlock 0) edgeDesc).binding = some ⟨.decrypt, .cfb, true⟩ := rfl

theorem witness_StatusAndConfigWords_unbound : (unboundEngine edgeDesc).binding = none := rfl

/-- Two bytes that end exactly at `MEMSIZE`. -/
theorem witness_HostMemoryReadsBackWhatWasWritten :
    ({ machine [(3, 1)] Engine.reset with inbox := [.writeMem 0x1FE [5, 0], .readMem 0x1FE 2] } : State).inbox
        = .writeMem 0x1FE [5, 0] :: .readMem 0x1FE 2 :: [] ∧
      Memory.wf (machine [(3, 1)] Engine.reset).mem = true ∧
      0x1FE + [5#8, 0#8].length ≤ (machine [(3, 1)] Engine.reset).params.memSize := by decide

/-- Two engines, numbers 0 and 1, each with a data memory of its own. -/
def twoEngines (inbox : List HostOp) : State :=
  { machine [(3, 1)] Engine.reset with
    params := { defaultParams with memSize := 0x200, nInst := 2, memoryIds := [0, 1] }
    peers := [(1, Engine.reset)], otherMems := [(1, [(3, 2)])], inbox := inbox }

/-- Two engines that are given the same data memory. -/
def sharingEngines (inbox : List HostOp) : State :=
  { twoEngines inbox with
    params := { defaultParams with memSize := 0x200, nInst := 2, memoryIds := [0, 0] }, otherMems := [] }

/-- The host of the engine addressed sees that engine's own memory; the other one stays. -/
theorem test_own_memories :
    nextWith (step (twoEngines [.select 1])) (fun t =>
      t.mem == [(3, 2)] && t.memoryAt 0 == some [(3, 1)] && t.peers.map Prod.fst == [0]) = true := by decide

/-- Engines that are given the same memory see the same bytes. -/
theorem test_shared_memory :
    nextWith (step (sharingEngines [.select 1])) (fun t => t.mem == [(3, 1)] && t.otherMems == []) = true := by decide

theorem twoEngines_inv (inbox : List HostOp) : (twoEngines inbox).Inv where
  paramsLegal := by show Params.wf (twoEngines []).params = true; decide
  memoryCanonical := by show ∀ m ∈ [[(3, 1)], [(3, 2)]], Memory.wf m = true; decide
  memoryInside := by show ∀ m ∈ [[(3, 1)], [(3, 2)]], Memory.within 0x200 m = true; decide
  enginesDistinct := by show List.Nodup [0, 1]; decide
  enginesBelow := by show ∀ n ∈ [0, 1], n < 2; decide
  enginesAll := by show List.length [0, 1] = 2; decide
  memoriesDistinct := by show List.Nodup [0, 1]; decide
  memoriesGiven := by show ∀ m, m ∈ [0, 1] ↔ m ∈ [0, 1]; simp

theorem sharingEngines_inv (inbox : List HostOp) : (sharingEngines inbox).Inv where
  paramsLegal := by show Params.wf (sharingEngines []).params = true; decide
  memoryCanonical := by show ∀ m ∈ [[(3, 1)]], Memory.wf m = true; decide
  memoryInside := by show ∀ m ∈ [[(3, 1)]], Memory.within 0x200 m = true; decide
  enginesDistinct := by show List.Nodup [0, 1]; decide
  enginesBelow := by show ∀ n ∈ [0, 1], n < 2; decide
  enginesAll := by show List.length [0, 1] = 2; decide
  memoriesDistinct := by show List.Nodup [0]; decide
  memoriesGiven := by show ∀ m, m ∈ [0] ↔ m ∈ [0, 0]; simp

theorem witness_PlatformResetClearsRegisters : (twoEngines [.reset]).inbox = .reset :: [] := rfl

/-- A run of the machine of two engines over a host access of each kind. -/
theorem witness_StepKeepsInvariant (op : HostOp)
    (hop : op = .writeReg 0 0x10 ∨ op = .writeReg 4 1 ∨ op = .readReg 1 ∨ op = .writeMem 0x1FF [1] ∨
      op = .readMem 0x1FF 1 ∨ op = .select 1 ∨ op = .reset) :
    (twoEngines [op]).Inv ∧ ∃ t, step (twoEngines [op]) = .next t := by
  refine ⟨twoEngines_inv _, ?_⟩
  rcases hop with rfl | rfl | rfl | rfl | rfl | rfl | rfl <;> exact ⟨_, rfl⟩

theorem witness_OnlyMissingAddressOrEngineStops :
    (twoEngines [.select 1]).Inv ∧ HostOp.wf (twoEngines []).params (.select 1) = true ∧
      HostOp.wf (twoEngines []).params (.select 2) = false ∧
      HostOp.wf (twoEngines []).params (.writeMem 0x1FF [1]) = true ∧
      HostOp.wf (twoEngines []).params (.writeMem 0x1FF [1, 1]) = false :=
  ⟨twoEngines_inv _, by decide, by decide, by decide, by decide⟩

theorem witness_FailedCommandChangesNothing :
    ∃ t, step { State.reset with inbox := [.writeReg 0 0x10#32] } = .next t ∧ t.eng.status ≠ .ok :=
  ⟨_, rfl, by decide⟩

theorem witness_RejectedCommandFailsAgain :
    ∃ t, exec .xblk State.reset = .next t ∧ t.eng.status ≠ .ok ∧ t.eng.desc = State.reset.eng.desc ∧
      t.eng.binding = State.reset.eng.binding ∧ t.params.memSize = State.reset.params.memSize :=
  ⟨_, rfl, by decide, rfl, rfl, rfl⟩

/-- Each code of R210 that a legal command can end with, and the illegal word. -/
theorem witness_StatusCodesOfEachCommand :
    (∃ t, exec (.crenc 3 false) State.reset = .next t ∧ t.eng.status = .errCfg) ∧
    (∃ t, exec .xblk (boundMachine ⟨.encrypt, .ecb, false⟩ (vectorDesc 0 0)) = .next t ∧ t.eng.status = .errArg) ∧
    (∃ t, exec .xfin State.reset = .next t ∧ t.eng.status = .errState) ∧
    (∃ t, exec .xblk (boundMachine ⟨.encrypt, .ecb, false⟩ (vectorDesc 8 0x1F9)) = .next t ∧ t.eng.status = .errBus) ∧
    (∃ t, exec .disp State.reset = .next t ∧ t.eng.status = .ok) ∧
    (∃ t, step { State.reset with inbox := [.writeReg 0 0#32] } = .next t ∧ t.eng.status = .errCmd) :=
  ⟨⟨_, rfl, rfl⟩, ⟨_, rfl, rfl⟩, ⟨_, rfl, rfl⟩, ⟨_, rfl, rfl⟩, ⟨_, rfl, rfl⟩, ⟨_, rfl, rfl⟩⟩

/-- `ERR_CFG`: 31 key bytes. `ERR_BUS`: S-box material one byte too far. `OK`: all three ranges end at `MEMSIZE`. -/
theorem witness_CreateStatus :
    ¬ ({ edgeMaterial with keyLen := 31 } : Descriptors).materialLengthsLegal ∧
    (1#2 ≠ 3#2 ∧ ({ edgeMaterial with sboxBase := 0x1C1 } : Descriptors).materialLengthsLegal ∧
      ¬ ({ edgeMaterial with sboxBase := 0x1C1 } : Descriptors).materialExists 0x200) ∧
    (edgeMaterial.materialLengthsLegal ∧ edgeMaterial.materialExists 0x200) := by
  unfold Descriptors.materialLengthsLegal Descriptors.materialExists; decide

/-- Unbound; 8 bytes asked of 7; a range one byte past `MEMSIZE`; and a range that ends at it. -/
theorem witness_XblkStatus (b : Binding) :
    State.reset.eng.binding = none ∧
    ((boundMachine b { edgeDesc with inSize := 7 }).eng.binding ≠ none ∧
      ¬ ({ edgeDesc with inSize := 7 } : Descriptors).xblkArgsLegal) ∧
    (({ edgeDesc with inBase := 0x1F9 } : Descriptors).xblkArgsLegal ∧
      ¬ ({ edgeDesc with inBase := 0x1F9 } : Descriptors).rangesExist 0x200) ∧
    (edgeDesc.xblkArgsLegal ∧ edgeDesc.rangesExist 0x200) := by
  refine ⟨rfl, ⟨fun h => (by cases h), ?_⟩, ?_, edge_xblkArgsLegal, edge_rangesExist⟩ <;>
    (unfold Descriptors.xblkArgsLegal; first | decide | (unfold Descriptors.rangesExist; decide))

/-- Unbound; no bytes in OFB without the MAC flag; a range one byte past `MEMSIZE`; a range that ends at it; and no bytes
with an output address that does not exist. -/
theorem witness_XfinStatus :
    State.reset.eng.binding = none ∧
    ¬ ({ edgeDesc with inCnt := 0 } : Descriptors).xfinArgsLegal ⟨.encrypt, .ofb, false⟩ ∧
    (({ edgeDesc with outBase := 0x1F9 } : Descriptors).xfinArgsLegal ⟨.encrypt, .ofb, false⟩ ∧
      0 < ({ edgeDesc with outBase := 0x1F9 } : Descriptors).inCnt.toInt ∧
      ¬ ({ edgeDesc with outBase := 0x1F9 } : Descriptors).rangesExist 0x200) ∧
    (edgeDesc.xfinArgsLegal ⟨.encrypt, .ofb, false⟩ ∧ edgeDesc.rangesExist 0x200) ∧
    ({ edgeDesc with inCnt := 0, outBase := 0xFFFFFFFF } : Descriptors).xfinArgsLegal ⟨.encrypt, .ofb, true⟩ := by
  refine ⟨rfl, ?_, ?_, ⟨edge_xfinArgsLegal _, edge_rangesExist⟩, ?_⟩ <;>
    (unfold Descriptors.xfinArgsLegal; first | decide | (unfold Descriptors.rangesExist; decide))

theorem witness_UnboundTransformFails :
    Instr.isTransform .xblk ∧ Instr.isTransform .xfin ∧ (machine [] (unboundEngine edgeDesc)).eng.binding = none :=
  ⟨.inl rfl, .inr rfl, rfl⟩

theorem witness_KeyIndexSequences : 31 < 32 ∧ encIdx (31 - 31) = decIdx 31 := by decide

theorem witness_EqualKeyWordsMakeFencInvolution :
    ∀ i j : Fin 8, (Vector.replicate 8 0xFFFFFFFF#32 : KeyWords)[i] = (Vector.replicate 8 0xFFFFFFFF#32 : KeyWords)[j] := by
  decide

/-- The two clauses of the carry form where they meet: V-OFBADV-3 and V-OFBADV-4. -/
theorem witness_OfbAdvance :
    0xFEFEFEFB + 0x01010104 ≤ 0xFFFFFFFF ∧ 2 ^ 32 ≤ 0xFEFEFEFC + 0x01010104 := by decide

theorem witness_BlockStepRoundTrip (x : Block) :
    ({ boundEngine .decrypt .cfb false x edgeDesc with n1 := 1 } : Engine).k
        = (boundEngine .encrypt .cfb true x edgeDesc).k ∧
      ({ boundEngine .decrypt .cfb false x edgeDesc with n1 := 1 } : Engine).t
        = (boundEngine .encrypt .cfb true x edgeDesc).t ∧
      ({ boundEngine .decrypt .cfb false x edgeDesc with n1 := 1 } : Engine).fb
        = (boundEngine .encrypt .cfb true x edgeDesc).fb := ⟨rfl, rfl, rfl⟩

/-- For `OfbRegisterIgnoresData`, `OfbHighWordNeverZero`, `TransformFrame` and `TransformFollowsBlockLoop`. -/
theorem witness_transforms :
    ∃ t, Instr.isTransform .xfin ∧
      (boundMachine ⟨.encrypt, .ofb, false⟩ edgeDesc).eng.binding = some ⟨.encrypt, .ofb, false⟩ ∧
      Memory.wf (boundMachine ⟨.encrypt, .ofb, false⟩ edgeDesc).mem = true ∧
      exec .xfin (boundMachine ⟨.encrypt, .ofb, false⟩ edgeDesc) = .next t ∧ t.eng.status = .ok ∧
      0 < (boundMachine ⟨.encrypt, .ofb, false⟩ edgeDesc).eng.desc.inCnt.toInt :=
  ⟨_, .inr rfl, rfl, rfl, edge_xfin _, rfl, by decide⟩

/-- `TransformFrame` where the command fails. -/
theorem witness_TransformFrame_failed :
    ∃ t, exec .xblk (boundMachine ⟨.encrypt, .ofb, false⟩ (vectorDesc 12 0)) = .next t ∧ t.eng.status ≠ .ok :=
  ⟨_, rfl, by decide⟩

theorem witness_OfbKeystreamBlocksDiffer : (0 : Nat) < 2 ^ 32 - 1 ∧ 2 ^ 32 - 1 < 0 + 2 ^ 32 := by decide

/-- For `CreateBindsTransform`, `CreateDerivesKeyWords`, `CreateDerivesTables`, `CrdecDiffersInDirectionOnly` and
`CreateForgetsOldTransform`. -/
theorem witness_creates (m : Mode) (macf : Bool) :
    (machine [] (unboundEngine edgeMaterial)).eng.desc.materialLengthsLegal ∧
      (machine [] (unboundEngine edgeMaterial)).eng.desc.materialExists
        (machine [] (unboundEngine edgeMaterial)).params.memSize ∧
      ∃ t, exec (.crenc (modeCode m) macf) (machine [] (unboundEngine edgeMaterial)) = .next t ∧ t.eng.status = .ok :=
  ⟨edge_materialLengthsLegal, edge_materialExists, _, edge_crenc m macf, rfl⟩

/-- `CrdecDiffersInDirectionOnly` where the command fails. -/
theorem witness_CrdecDiffersInDirectionOnly_failed :
    ∃ t, exec (.crenc 3 false) State.reset = .next t ∧ t.eng.status ≠ .ok := ⟨_, rfl, by decide⟩

theorem witness_XblkCompletes (b : Binding) :
    (boundMachine b edgeDesc).eng.binding = some b ∧ Memory.wf (boundMachine b edgeDesc).mem = true ∧
      (boundMachine b edgeDesc).eng.desc.xblkArgsLegal ∧
      (boundMachine b edgeDesc).eng.desc.rangesExist (boundMachine b edgeDesc).params.memSize :=
  ⟨rfl, rfl, edge_xblkArgsLegal, edge_rangesExist⟩

/-- With bytes, and without. -/
theorem witness_XfinCompletes :
    ((boundMachine ⟨.decrypt, .cfb, false⟩ edgeDesc).eng.binding = some ⟨.decrypt, .cfb, false⟩ ∧
      edgeDesc.xfinArgsLegal ⟨.decrypt, .cfb, false⟩ ∧ edgeDesc.rangesExist 0x200) ∧
    (({ edgeDesc with inCnt := 0 } : Descriptors).xfinArgsLegal ⟨.decrypt, .cfb, true⟩ ∧
      ({ edgeDesc with inCnt := 0 } : Descriptors).inCnt = 0) := by
  refine ⟨⟨rfl, edge_xfinArgsLegal _, edge_rangesExist⟩, ?_⟩
  unfold Descriptors.xfinArgsLegal; decide

theorem witness_XfinWithDataIsXblk :
    0 < (boundMachine ⟨.decrypt, .cfb, false⟩ edgeDesc).eng.desc.inCnt.toInt := by decide

/-- The offset at its greatest legal value, for every mode and flag. -/
theorem witness_XfinOfZeroLength (b : Binding) :
    (boundMachine b { edgeDesc with inCnt := 0, inOff := 8 }).eng.binding = some b ∧
      (boundMachine b { edgeDesc with inCnt := 0, inOff := 8 }).eng.desc.inCnt = 0 ∧
      0 ≤ (boundMachine b { edgeDesc with inCnt := 0, inOff := 8 }).eng.desc.inOff.toInt ∧
      (boundMachine b { edgeDesc with inCnt := 0, inOff := 8 }).eng.desc.inOff.toInt
        ≤ (boundMachine b { edgeDesc with inCnt := 0, inOff := 8 }).eng.desc.inSize.toNat := by
  refine ⟨rfl, rfl, ?_, ?_⟩
  · show 0 ≤ (8#32).toInt; decide
  · show (8#32).toInt ≤ (8#32).toNat; decide

/-- A transform command in OFB issued by the host. -/
theorem witness_OnlyTheseChangeCipherState :
    ∃ s t : State, step s = .next t ∧ s.inbox = .writeReg 0 0x10#32 :: [] ∧ s.nextCommand = some .xblk ∧
      s.eng.binding = some ⟨.encrypt, .ofb, false⟩ :=
  ⟨{ boundMachine ⟨.encrypt, .ofb, false⟩ edgeDesc with inbox := [.writeReg 0 0x10#32] }, _,
    edge_xblk ⟨.encrypt, .ofb, false⟩, rfl, by decide, rfl⟩

/-- Two machines that differ in `K`, `FB` and `n1`, each about to run a transform command, and about to read a register. -/
theorem witness_SecretsHaveNoReadPath (op : HostOp) :
    let s : State := { boundMachine ⟨.encrypt, .ofb, false⟩ edgeDesc with inbox := [op] }
    let s' : State :=
      { s with eng := { s.eng with k := Vector.replicate 8 1#32, fb := Vector.replicate 8 2#8, n1 := 3 } }
    s.visible = s'.visible ∧ s ≠ s' ∧ (op = .writeReg 0 0x11#32 → s.runsTransform) ∧
      (op = .readReg 2 → ¬ s.runsTransform) := by
  refine ⟨rfl, ?_, ?_, ?_⟩
  · intro h
    have hn := congrArg (fun s : State => s.eng.n1) h
    exact absurd (show (0 : Word) = 3 from hn) (by decide)
  · rintro rfl
    exact ⟨fun h => (by cases h), .inr (by decide)⟩
  · rintro rfl ⟨_, h⟩
    rcases h with h | h <;> cases h

/-- Engines with memories of their own, and engines that share one. -/
theorem witness_EnginesDoNotInteract :
    (∃ t, (twoEngines [.select 1]).Inv ∧ step (twoEngines [.select 1]) = .next t ∧
      (∀ rest, (twoEngines [.select 1]).inbox ≠ .reset :: rest) ∧ (1 : Nat) ≠ (twoEngines [.select 1]).engineId ∧
      (1 : Nat) ≠ (twoEngines [.select 1]).memoryId) ∧
    (∃ t, (sharingEngines [.select 1]).Inv ∧ step (sharingEngines [.select 1]) = .next t) :=
  ⟨⟨_, twoEngines_inv _, rfl, fun _ h => (by cases h), by decide, by decide⟩, _, sharingEngines_inv _, rfl⟩

/-- A command of the engine addressed, beside an engine with a memory of its own. -/
theorem witness_StepIgnoresOtherEngines :
    ∃ t, step (twoEngines [.writeReg 0 0x11#32]) = .next t ∧
      (∀ rest, (twoEngines [.writeReg 0 0x11#32]).inbox ≠ .reset :: rest) ∧
      (∀ n rest, (twoEngines [.writeReg 0 0x11#32]).inbox ≠ .select n :: rest) :=
  ⟨_, rfl, fun _ h => (by cases h), fun _ _ h => (by cases h)⟩

theorem witness_CommandsOfTwoEnginesCommute :
    (twoEngines []).Inv ∧ 0 < (twoEngines []).params.nInst ∧ 1 < (twoEngines []).params.nInst ∧
      (twoEngines []).params.memoryOf 0 ≠ (twoEngines []).params.memoryOf 1 :=
  ⟨twoEngines_inv _, by decide, by decide, by decide⟩

/-- Sixteen bytes, by `XBLK` and then `XFIN`, that end at `MEMSIZE`. -/
theorem witness_SplitInvariance (b : Binding) :
    let d : Descriptors := { vectorDesc 16 0x1F0 with inBase := 0x1F0, inSize := 16, outSize := 16 }
    ∃ t, Instr.isTransform .xblk ∧ (boundMachine b d).params.wf = true ∧
      exec .xblk (boundMachine b d) = .next t ∧ t.eng.status = .ok ∧ 0 < (boundMachine b d).eng.desc.inCnt.toInt ∧
      (∀ p ∈ [(Instr.xblk, 8), (Instr.xfin, 8)], p.1.isTransform ∧ 0 < p.2 ∧ p.2 % 8 = 0) ∧
      ([(Instr.xblk, 8), (Instr.xfin, 8)].map Prod.snd).sum = (boundMachine b d).eng.desc.inCnt.toNat := by
  intro d
  have ha : d.xblkArgsLegal := by unfold Descriptors.xblkArgsLegal; decide
  have hr : d.rangesExist 0x200 := by unfold Descriptors.rangesExist; decide
  refine ⟨_, .inl rfl, show Params.wf (machine [] Engine.reset).params = true by decide, execXblk_ok (s := boundMachine b d) (b := b) rfl ha hr, rfl, ?_, ?_, ?_⟩
  · show 0 < (16#32).toInt; decide
  · unfold Instr.isTransform; decide
  · show 16 = (16#32).toNat; decide

/-- In place in one machine and to a range beside the input in the other; both inputs are bytes nothing has written. -/
theorem witness_TransformDependsOnInputAlone (b : Binding) :
    let d : Descriptors := { edgeDesc with inBase := 0x1F0 }
    ∃ t t', edgeDesc.inPlaceOrDisjoint ∧ d.inPlaceOrDisjoint ∧
      exec .xblk (boundMachine b edgeDesc) = .next t ∧ t.eng.status = .ok ∧
      exec .xblk (boundMachine b d) = .next t' ∧ t'.eng.status = .ok ∧
      d.inCnt = edgeDesc.inCnt ∧ Memory.wf (boundMachine b d).mem = true ∧
      ∀ n < edgeDesc.inCnt.toNat,
        Memory.read (boundMachine b d).mem (d.inStart.toNat + n)
          = Memory.read (boundMachine b edgeDesc).mem (edgeDesc.inStart.toNat + n) := by
  intro d
  have ha : d.xblkArgsLegal := by unfold Descriptors.xblkArgsLegal; decide
  have hr : d.rangesExist 0x200 := by unfold Descriptors.rangesExist; decide
  refine ⟨_, _, .inl (by decide), .inr (.inr (by decide)), edge_xblk b, rfl,
    execXblk_ok (s := boundMachine b d) (b := b) rfl ha hr, rfl, rfl, rfl, fun _ _ => rfl⟩

/-- Material in the first half of the memory, input and output beside each other in the second. -/
theorem witness_DecryptorRecoversPlaintext :
    let d : Descriptors := { vectorDesc 8 0x1F8 with inBase := 0x1F0, inSize := 8, outSize := 8 }
    Memory.wf (machine [(0x1F0, 7)] (unboundEngine d)).mem = true ∧
      d.materialLengthsLegal ∧ d.materialExists 0x200 ∧ d.xblkArgsLegal ∧ d.rangesExist 0x200 ∧
      d.inPlaceOrDisjoint ∧ d.outputClearOfMaterial := by
  unfold Descriptors.materialLengthsLegal Descriptors.materialExists Descriptors.xblkArgsLegal Descriptors.rangesExist
    Descriptors.inPlaceOrDisjoint Descriptors.outputClearOfMaterial
  decide

end Sys2Proof.Tests
end

section
/-! PROOFS. The machine's invariant: it holds at reset, every step keeps it, and under it a step stops exactly on a host
access to what does not exist. The memory part goes through one predicate, `Memory.Legal`; the rest is that the numbers of
the engines and of the data memories are only ever permuted. -/

namespace Sys2Proof

/-- What the invariant asks of each data memory: the canonical form, and no listed address at or above `size`. -/
def Memory.Legal (size : Nat) (m : Memory) : Prop := Memory.wf m = true ∧ Memory.within size m = true

/-- A write of a range that exists keeps a memory legal. -/
theorem legal_writeBytes {size : Nat} {m : Memory} (hm : Memory.Legal size m) {addr : Nat} {bytes : List Byte}
    (hr : rangeExists size addr bytes.length = true) : Memory.Legal size (Memory.writeBytes m addr bytes) := by
  cases bytes with
  | nil => exact hm
  | cons b rest =>
    have hend : addr + (b :: rest).length ≤ size := by simpa [rangeExists] using hr
    exact ⟨wf_writeBytes hm.1 _ _, within_writeBytes hm.2 hend⟩

theorem legal_m0 {p : Params} (hp : p.wf = true) : Memory.Legal p.memSize p.m0 := by
  simp only [Params.wf, Bool.and_eq_true] at hp
  obtain ⟨⟨⟨⟨_, hwf⟩, hin⟩, _⟩, _⟩ := hp
  exact ⟨hwf, hin⟩

theorem length_memoryIds {p : Params} (hp : p.wf = true) : p.memoryIds.length = p.nInst := by
  simp only [Params.wf, Bool.and_eq_true, decide_eq_true_eq] at hp
  exact hp.2

/-- The data memory that an engine of the system is given is one of those listed. -/
theorem memoryOf_mem {p : Params} (hp : p.wf = true) {n : Nat} (hn : n < p.nInst) : p.memoryOf n ∈ p.memoryIds := by
  have hlen : n < p.memoryIds.length := by rw [length_memoryIds hp]; exact hn
  rw [Params.memoryOf, List.getD_eq_getElem _ _ hlen]
  exact List.getElem_mem hlen

end Sys2Proof

namespace Sys2Proof.Machine

open Sys2Proof

/-! ### What the invariant says -/

theorem memoryAt_isSome {s : State} {m : Nat} : (s.memoryAt m).isSome = true ↔ m ∈ s.memoryIds := by
  unfold State.memoryAt State.memoryIds
  by_cases hm : m = s.memoryId
  · simp [hm]
  · simp [hm, findNumbered_isSome]

theorem inv_legal {s : State} (hs : s.Inv) : ∀ m ∈ s.memories, Memory.Legal s.params.memSize m :=
  fun m hm => ⟨hs.memoryCanonical m hm, hs.memoryInside m hm⟩

/-- The memory of the engine addressed is legal. -/
theorem inv_mem_legal {s : State} (hs : s.Inv) : Memory.Legal s.params.memSize s.mem :=
  inv_legal hs _ List.mem_cons_self

/-- The numbers of the engines are exactly those below `NINST`: they are `NINST` different ones, all below it. -/
theorem mem_engineIds_iff {s : State} (hs : s.Inv) {n : Nat} : n ∈ s.engineIds ↔ n < s.params.nInst := by
  have hsub : s.engineIds ⊆ List.range s.params.nInst := fun m hm => List.mem_range.mpr (hs.enginesBelow m hm)
  have hperm : s.engineIds.Perm (List.range s.params.nInst) :=
    (hs.enginesDistinct.subperm hsub).perm_of_length_le (by simp [hs.enginesAll])
  rw [hperm.mem_iff, List.mem_range]

/-- The data memory that an engine of the system is given is there. -/
theorem inv_memoryAt_isSome {s : State} (hs : s.Inv) {n : Nat} (hn : n < s.params.nInst) :
    (s.memoryAt (s.params.memoryOf n)).isSome = true :=
  memoryAt_isSome.mpr ((hs.memoriesGiven _).mpr (memoryOf_mem hs.paramsLegal hn))

/-! ### How the invariant is kept -/

/-- The invariant carries over when the parameters stay, the numbers are permuted and every data memory is legal. -/
theorem inv_of_perm {s t : State} (hs : s.Inv) (hp : t.params = s.params) (he : t.engineIds.Perm s.engineIds)
    (hm : t.memoryIds.Perm s.memoryIds) (hl : ∀ m ∈ t.memories, Memory.Legal s.params.memSize m) : t.Inv where
  paramsLegal := hp ▸ hs.paramsLegal
  memoryCanonical := fun m h => (hl m h).1
  memoryInside := fun m h => hp ▸ (hl m h).2
  enginesDistinct := he.nodup_iff.mpr hs.enginesDistinct
  enginesBelow := fun n h => hp ▸ hs.enginesBelow n (he.mem_iff.mp h)
  enginesAll := by rw [hp, he.length_eq, hs.enginesAll]
  memoriesDistinct := hm.nodup_iff.mpr hs.memoriesDistinct
  memoriesGiven := fun m => by rw [hp, hm.mem_iff, hs.memoriesGiven]

/-- The invariant carries over to a state that differs in the engine addressed, in its data memory if that stays legal, and
in what the host keeps. -/
theorem inv_of_frame {s t : State} (hs : s.Inv) (hp : t.params = s.params) (hid : t.engineId = s.engineId)
    (hpeers : t.peers = s.peers) (hother : t.otherMems = s.otherMems)
    (hmem : Memory.Legal s.params.memSize t.mem) : t.Inv := by
  refine inv_of_perm hs hp (by simp [State.engineIds, hid, hpeers])
    (by simp [State.memoryIds, State.memoryId, hp, hid, hother]) fun m hm => ?_
  rw [State.memories, hother] at hm
  rcases List.mem_cons.mp hm with rfl | hm
  · exact hmem
  · exact inv_legal hs m (List.mem_cons_of_mem _ hm)

theorem inv_finish {s : State} (hs : s.Inv) (code : StatusCode) (result : Word) : (s.finish code result).Inv :=
  inv_of_frame hs rfl rfl rfl rfl (inv_mem_legal hs)

theorem inv_reply {s : State} (hs : s.Inv) (r : HostReply) : (s.reply r).Inv :=
  inv_of_frame hs rfl rfl rfl rfl (inv_mem_legal hs)

theorem inv_hostWriteReg {s : State} (hs : s.Inv) (n : Nat) (v : Word) : (s.hostWriteReg n v).Inv :=
  inv_of_frame hs rfl rfl rfl rfl (inv_mem_legal hs)

theorem inv_withInbox {s : State} (hs : s.Inv) (rest : List HostOp) : State.Inv { s with inbox := rest } :=
  inv_of_frame hs rfl rfl rfl rfl (inv_mem_legal hs)

/-- The platform's reset puts `M0` in every data memory and leaves the numbers alone. -/
theorem inv_platformReset {s : State} (hs : s.Inv) : s.platformReset.Inv := by
  refine inv_of_perm hs rfl (by simp [State.engineIds, Function.comp_def])
    (by simp [State.memoryIds, State.memoryId, Function.comp_def]) fun m hm => ?_
  have hm0 : m = s.params.m0 := by
    simp only [State.memories, platformReset_mem, platformReset_otherMems, List.map_map, List.mem_cons,
      List.mem_map, Function.comp_apply] at hm
    obtain rfl | ⟨_, _, rfl⟩ := hm <;> rfl
  exact hm0 ▸ legal_m0 hs.paramsLegal

/-! ### Commands -/

/-- A transform command ends with an error and changes nothing but `STATUS` and `RESULT`, or it ends with `OK`. -/
theorem exec_transform_cases {i : Instr} (hi : i.isTransform) (s : State) :
    (∃ code, exec i s = .next (s.finish code 0)) ∨ ∃ t, exec i s = .next t ∧ t.eng.status = .ok := by
  rcases hi with rfl | rfl
  · rcases execXblk_cases s with ⟨_, h⟩ | ⟨_, code, _, _, h⟩ | ⟨b, _, _, h⟩
    · exact .inl ⟨_, h⟩
    · exact .inl ⟨code, h⟩
    · exact .inr ⟨_, h, finish_eng_status ..⟩
  · rcases execXfin_cases s with ⟨_, h⟩ | ⟨_, code, _, _, h⟩ | ⟨b, _, _, h⟩
    · exact .inl ⟨_, h⟩
    · exact .inl ⟨code, h⟩
    · exact .inr ⟨_, h, finish_eng_status ..⟩

/-- The block loop of a command whose output range exists keeps its data memory legal. -/
theorem transformAction_legal (b : Binding) {s : State} (hm : Memory.Legal s.params.memSize s.mem)
    (h0 : 0 ≤ s.eng.desc.inCnt.toInt)
    (hr : 0 < s.eng.desc.inCnt.toInt → s.eng.desc.xblkArgsLegal ∧ s.eng.desc.rangesExist s.params.memSize) :
    Memory.Legal s.params.memSize (transformAction b s).1.mem := by
  obtain ⟨hcount, hnat⟩ := count_toNat h0
  refine ⟨blockLoop_wf _ _ _ _ _ hm.1, ?_⟩
  simp only [transformAction, hcount]
  by_cases hpos : 0 < s.eng.desc.inCnt.toInt
  · obtain ⟨⟨_, _, _, hoff, _, _⟩, _, hend⟩ := hr hpos
    refine blockLoop_within _ _ _ _ _ hm.2 ?_
    simp only [Descriptors.outStart, sint_eq_toInt, uint]
    omega
  · rw [show s.eng.desc.inCnt.toNat = 0 by omega]
    exact hm.2

/-- A command other than the two transform commands leaves the data memory alone. -/
theorem exec_mem_of_not_transform {i : Instr} (hi : ¬ i.isTransform) {s t : State} (h : exec i s = .next t) :
    t.mem = s.mem := by
  have create : ∀ {dir mode macf}, createTransform dir mode macf s = .next t → t.mem = s.mem := by
    intro dir mode macf hc
    rcases createTransform_cases dir mode macf s with ⟨_, _, hu⟩ | ⟨_, _, _, hu⟩ <;>
      (rw [hu] at hc; cases hc; rfl)
  cases i with
  | crenc mode macf => exact create (exec_crenc mode macf s ▸ h)
  | crdec mode macf => exact create (exec_crdec mode macf s ▸ h)
  | xblk => exact absurd (.inl rfl) hi
  | xfin => exact absurd (.inr rfl) hi
  | disp => cases h; rfl

/-- Every command keeps its data memory legal. -/
theorem exec_mem_legal {i : Instr} {s t : State} (h : exec i s = .next t)
    (hm : Memory.Legal s.params.memSize s.mem) : Memory.Legal s.params.memSize t.mem := by
  by_cases hi : i.isTransform
  · rcases exec_transform_cases hi s with ⟨code, hu⟩ | ⟨u, hu, hok⟩
    · rw [hu] at h; cases h; exact hm
    · rw [hu] at h; cases h
      obtain ⟨b, _, hend, h0, _, hr⟩ := exec_transform_ok hi hu hok
      rw [hend]
      exact transformAction_legal b hm h0 hr
  · rw [exec_mem_of_not_transform hi h]
    exact hm

/-- Every command keeps the invariant. -/
theorem exec_keeps_inv {i : Instr} {s t : State} (hs : s.Inv) (h : exec i s = .next t) : t.Inv := by
  obtain ⟨hp, hid, hpeers, hother, -⟩ := exec_frame h
  exact inv_of_frame hs hp hid hpeers hother (exec_mem_legal h (inv_mem_legal hs))

/-- A write of `CMD` keeps the invariant, whatever the word. -/
theorem issue_keeps_inv {w : Word} {s t : State} (hs : s.Inv) (h : issue w s = .next t) : t.Inv := by
  rcases issue_cases w s with ⟨i, _, hu⟩ | ⟨_, _, hu⟩
  · exact exec_keeps_inv hs (hu ▸ h)
  · rw [hu] at h; cases h
    exact inv_finish hs _ _

/-! ### Host accesses -/

/-- Addressing an engine keeps the invariant: it permutes the numbers and brings no new data memory. -/
theorem selectEngine_keeps_inv {n : Nat} {s t : State} (hs : s.Inv) (h : selectEngine n s = .next t) : t.Inv := by
  have hp : t.params = s.params := by
    rcases selectEngine_cases n s with ⟨_, hu⟩ | ⟨_, _, _, _, _, hu⟩ | ⟨_, _, hu⟩ <;> rw [hu] at h <;>
      cases h <;> rfl
  obtain ⟨hengines, hmemories⟩ := selectEngine_numbers h
  exact inv_of_perm hs hp hengines hmemories fun m hm => inv_legal hs m (selectEngine_memories h m hm)

/-- A host write of the data memory, by whether its range exists. -/
theorem hostWriteMem_cases (addr : Nat) (bytes : List Byte) (s : State) :
    (rangeExists s.params.memSize addr bytes.length = true ∧
      hostWriteMem addr bytes s = .next { s with mem := Memory.writeBytes s.mem addr bytes }) ∨
    (rangeExists s.params.memSize addr bytes.length = false ∧
      hostWriteMem addr bytes s = .fault (.addressDoesNotExist addr bytes.length)) := by
  unfold hostWriteMem
  cases h : rangeExists s.params.memSize addr bytes.length with
  | true => exact .inl ⟨rfl, rfl⟩
  | false => exact .inr ⟨rfl, rfl⟩

/-- A host read of the data memory, by whether its range exists. -/
theorem hostReadMem_cases (addr n : Nat) (s : State) :
    (rangeExists s.params.memSize addr n = true ∧
      hostReadMem addr n s = .next (s.reply (.mem addr (Memory.readBytes s.mem addr n).toList))) ∨
    (rangeExists s.params.memSize addr n = false ∧ hostReadMem addr n s = .fault (.addressDoesNotExist addr n)) := by
  unfold hostReadMem
  cases h : rangeExists s.params.memSize addr n with
  | true => exact .inl ⟨rfl, rfl⟩
  | false => exact .inr ⟨rfl, rfl⟩

/-- Every host access that is answered keeps the invariant. -/
theorem hostStep_keeps_inv {op : HostOp} {s t : State} (hs : s.Inv) (h : hostStep op s = .next t) : t.Inv := by
  cases op with
  | writeReg n v =>
    replace h : hostWrite n v s = .next t := h
    unfold hostWrite at h
    split at h
    · exact issue_keeps_inv hs h
    · cases h
      exact inv_hostWriteReg hs n v
  | readReg n =>
    cases h
    exact inv_reply hs _
  | writeMem addr bytes =>
    replace h : hostWriteMem addr bytes s = .next t := h
    rcases hostWriteMem_cases addr bytes s with ⟨hr, hu⟩ | ⟨_, hu⟩ <;> rw [hu] at h <;> cases h
    exact inv_of_frame hs rfl rfl rfl rfl (legal_writeBytes (inv_mem_legal hs) hr)
  | readMem addr n =>
    replace h : hostReadMem addr n s = .next t := h
    rcases hostReadMem_cases addr n s with ⟨_, hu⟩ | ⟨_, hu⟩ <;> rw [hu] at h <;> cases h
    exact inv_reply hs _
  | select n => exact selectEngine_keeps_inv hs h
  | reset =>
    cases h
    exact inv_platformReset hs

/-! ### Which accesses are answered -/

/-- Every write of a register is answered. -/
theorem hostWrite_next (n : Nat) (v : Word) (s : State) : ∃ t, hostWrite n v s = .next t := by
  unfold hostWrite
  split
  · rcases issue_cases v s with ⟨i, _, hu⟩ | ⟨_, _, hu⟩
    · exact hu ▸ exec_next i s
    · exact ⟨_, hu⟩
  · exact ⟨_, rfl⟩

/-- Under the invariant the engines that can be addressed are those with a number below `NINST`. -/
theorem selectEngine_answer {s : State} (hs : s.Inv) (n : Nat) :
    (n < s.params.nInst ∧ ∃ t, selectEngine n s = .next t) ∨
    (¬ n < s.params.nInst ∧ selectEngine n s = .fault (.engineDoesNotExist n)) := by
  rw [← mem_engineIds_iff hs]
  rcases selectEngine_cases n s with ⟨hn, hu⟩ | ⟨_, e, m, hf, _, hu⟩ | ⟨hn, hnone, hu⟩
  · exact .inl ⟨hn ▸ List.mem_cons_self, _, hu⟩
  · exact .inl ⟨List.mem_cons_of_mem _ (findNumbered_isSome.mp (by simp [hf])), _, hu⟩
  · refine .inr ⟨fun hmem => ?_, hu⟩
    have hpeer : (findNumbered n s.peers).isSome = true :=
      findNumbered_isSome.mpr ((List.mem_cons.mp hmem).resolve_left hn)
    have hmemory := inv_memoryAt_isSome hs ((mem_engineIds_iff hs).mp hmem)
    rcases hnone with hnone | hnone
    · simp [hnone] at hpeer
    · simp [hnone] at hmemory

/-- Under the invariant a host access is answered when all it names exists, and otherwise it is a fault. -/
theorem hostStep_answer {s : State} (hs : s.Inv) (op : HostOp) :
    (op.wf s.params = true ∧ ∃ t, hostStep op s = .next t) ∨
    (op.wf s.params = false ∧ ∃ f, hostStep op s = .fault f) := by
  cases op with
  | writeReg n v => exact .inl ⟨rfl, hostWrite_next n v s⟩
  | readReg n => exact .inl ⟨rfl, _, rfl⟩
  | writeMem addr bytes =>
    exact (hostWriteMem_cases addr bytes s).imp (fun h => ⟨h.1, _, h.2⟩) (fun h => ⟨h.1, _, h.2⟩)
  | readMem addr n =>
    exact (hostReadMem_cases addr n s).imp (fun h => ⟨h.1, _, h.2⟩) (fun h => ⟨h.1, _, h.2⟩)
  | select n =>
    exact (selectEngine_answer hs n).imp (fun h => ⟨decide_eq_true h.1, h.2⟩)
      (fun h => ⟨decide_eq_false h.1, _, h.2⟩)
  | reset => exact .inl ⟨rfl, _, rfl⟩

/-! ### The obligations -/

/-- Settles O13, by the next access: each of them keeps the invariant, a whole command among them. -/
theorem stepKeepsInvariant : Obligations.StepKeepsInvariant := by
  intro s t hs h
  replace h : nextAccess s = .next t := h
  rcases nextAccess_cases s with ⟨_, hu⟩ | ⟨op, rest, _, hu⟩
  · rw [hu] at h; cases h
    exact hs
  · exact hostStep_keeps_inv (inv_withInbox hs rest) (hu ▸ h)

/-- Settles O14, by the next access: under the invariant what it names exists or it is a fault. -/
theorem onlyMissingAddressOrEngineStops : Obligations.OnlyMissingAddressOrEngineStops := by
  intro s hs
  show ((∀ op rest, s.inbox = op :: rest → op.wf s.params = true) ↔ ∃ t, nextAccess s = .next t) ∧
    ∀ r, nextAccess s ≠ .refused r
  rcases nextAccess_cases s with ⟨hin, hu⟩ | ⟨op, rest, hin, hu⟩
  · rw [hu]
    exact ⟨⟨fun _ => ⟨s, rfl⟩, fun _ op rest h => by simp [hin] at h⟩, fun r h => by cases h⟩
  · rw [hu]
    rcases hostStep_answer (inv_withInbox hs rest) op with ⟨hwf, t, ht⟩ | ⟨hwf, f, hf⟩
    · refine ⟨⟨fun _ => ⟨t, ht⟩, fun _ op' rest' h => ?_⟩, fun r h => by simp [ht] at h⟩
      obtain ⟨rfl, -⟩ := List.cons.inj (hin.symm.trans h)
      exact hwf
    · refine ⟨⟨fun h => ?_, fun ⟨t, ht⟩ => by simp [hf] at ht⟩, fun r h => by simp [hf] at h⟩
      exact absurd (h op rest hin) (by simpa using hwf)

/-- Settles O12: one engine, number 0, with one data memory, number 0, that lists no byte. -/
theorem resetMeetsInvariant : Obligations.ResetMeetsInvariant where
  paramsLegal := by decide
  memoryCanonical := by decide
  memoryInside := by decide
  enginesDistinct := by decide
  enginesBelow := by decide
  enginesAll := rfl
  memoriesDistinct := by decide
  memoriesGiven := fun _ => Iff.rfl

end Sys2Proof.Machine
end

section
/-! PROOFS. The registers of the engine and its private state: what the host reads and writes, what a command leaves alone,
and that the host's view of a step is a function of its view of the state, transform output apart. -/

namespace Sys2Proof.Machine

open Sys2Proof

/-! ### One step: the next access -/

/-- A step on a state with a waiting access is that access, taken from those that wait. -/
theorem step_of_inbox {s : State} {op : HostOp} {rest : List HostOp} (h : s.inbox = op :: rest) :
    step s = hostStep op { s with inbox := rest } := by
  unfold step nextAccess
  rw [h]

theorem step_idle {s : State} (h : s.inbox = []) : step s = .next s := by
  unfold step nextAccess
  rw [h]

theorem hostStep_writeReg {n : Nat} (hn : n ≠ 0) (v : Word) (s : State) :
    hostStep (.writeReg n v) s = .next (s.hostWriteReg n v) := if_neg hn

theorem hostStep_writeCmd (w : Word) (s : State) : hostStep (.writeReg 0 w) s = issue w s := rfl

theorem instr?_eq_some {d : Decoded} {i : Instr} : d.instr? = some i ↔ d = .command i := by
  cases d <;> simp [Decoded.instr?]

/-- The next access issues a command exactly when it is the write of that command's word to `CMD`. -/
theorem nextCommand_eq_some {s : State} {i : Instr} :
    s.nextCommand = some i ↔ ∃ w rest, s.inbox = .writeReg 0 w :: rest ∧ decodeWord w = .command i := by
  unfold State.nextCommand
  constructor
  · intro h
    split at h
    · next n w rest hin =>
      split at h
      · next hn => exact ⟨w, rest, hn ▸ hin, instr?_eq_some.mp h⟩
      · cases h
    · cases h
  · rintro ⟨w, rest, hin, hw⟩
    simp [hin, hw, Decoded.instr?]

/-- A step whose access issues a command runs that command on the state without the access. -/
theorem step_of_nextCommand {s : State} {i : Instr} (h : s.nextCommand = some i) :
    step s = exec i { s with inbox := s.inbox.tail } := by
  obtain ⟨w, rest, hin, hw⟩ := nextCommand_eq_some.mp h
  rw [step_of_inbox hin, hostStep_writeCmd, issue, hw, hin]
  rfl

/-! ### The registers as the host reads and writes them -/

theorem readReg_status (e : Engine) : e.readReg 1 = statusWord e.status := rfl
theorem readReg_config (e : Engine) : e.readReg 3 = configWord e.binding := rfl

theorem readReg_above {n : Nat} (hn : 16 < n) (e : Engine) : e.readReg n = 0 := by
  obtain ⟨k, rfl⟩ := Nat.exists_eq_add_of_le' hn
  rfl

theorem write_of_not_descriptor {n : Nat} (hn : ¬ (4 ≤ n ∧ n ≤ 16)) (v : Word) (d : Descriptors) :
    d.write n v = d := by
  by_cases h : n < 4
  · interval_cases n <;> rfl
  · obtain ⟨k, rfl⟩ := Nat.exists_eq_add_of_le' (show 17 ≤ n by omega)
    rfl

/-- The one law of a register write: a descriptor register holds the word written, every other reads as before. -/
theorem readReg_write (e : Engine) (n : Nat) (v : Word) (m : Nat) :
    Engine.readReg m { e with desc := e.desc.write n v } = if m = n ∧ 4 ≤ n ∧ n ≤ 16 then v else e.readReg m := by
  by_cases hn : 4 ≤ n ∧ n ≤ 16
  · by_cases hm : m ≤ 16
    · obtain ⟨hlo, hhi⟩ := hn
      interval_cases n <;> interval_cases m <;> rfl
    · rw [if_neg (by omega), readReg_above (by omega), readReg_above (by omega)]
  · rw [if_neg fun h => hn h.2, write_of_not_descriptor hn]

/-- An unbound engine with `STATUS = OK`, `RESULT = 0` and its descriptors 0 reads 0 everywhere. -/
theorem readReg_eq_zero {e : Engine} (hs : e.status = .ok) (hr : e.result = 0) (hb : e.binding = none)
    (hd : e.desc = Descriptors.reset) (n : Nat) : e.readReg n = 0 := by
  by_cases hn : n ≤ 16
  · interval_cases n <;>
      simp [Engine.readReg, hs, hr, hb, hd, statusWord, statusCode, configWord, Descriptors.reset]
  · exact readReg_above (by omega) e

/-! ### The words of `STATUS` and `CONFIG` -/

theorem getLsbD_statusWord_high (c : StatusCode) {n : Nat} (hn : 3 ≤ n) : (statusWord c).getLsbD n = false := by
  rw [statusWord, BitVec.getLsbD_append, if_neg (by omega), BitVec.getLsbD_zero]

theorem getLsbD_configWord_high (b : Option Binding) {n : Nat} (hn : 5 ≤ n) : (configWord b).getLsbD n = false := by
  cases b with
  | none => exact BitVec.getLsbD_zero
  | some b =>
    rw [configWord, BitVec.getLsbD_append, if_neg (by omega), BitVec.getLsbD_append, if_neg (by omega),
      BitVec.getLsbD_append, if_neg (by omega), BitVec.getLsbD_append, if_neg (by omega), BitVec.getLsbD_zero]

/-- The four fields of `CONFIG` on a bound engine. -/
theorem configWord_fields (b : Binding) :
    (configWord (some b)).getLsbD 0 = true ∧ (configWord (some b)).getLsbD 1 = decide (b.dir = .decrypt) ∧
      (configWord (some b)).extractLsb' 2 2 = modeCode b.mode ∧ (configWord (some b)).getLsbD 4 = b.macf := by
  obtain ⟨dir, mode, macf⟩ := b
  cases dir <;> cases mode <;> cases macf <;> decide

theorem modeCode_ne_three (m : Mode) : modeCode m ≠ 3#2 := by cases m <;> decide

/-! ### What a command never reads: `STATUS` and `RESULT` -/

/-- A block step neither reads nor writes `STATUS` and `RESULT`. -/
theorem blockStep_setOutcome (b : Binding) (x : Block) (e : Engine) (c : StatusCode) (r : Word) :
    Engine.blockStep b x { e with status := c, result := r }
      = ({ (e.blockStep b x).1 with status := c, result := r }, (e.blockStep b x).2) := by
  obtain ⟨dir, mode, macf⟩ := b
  cases mode with
  | ecb => cases dir <;> simp only [blockStep_ecb_encrypt, blockStep_ecb_decrypt]
  | ofb => simp only [blockStep_ofb]
  | cfb => cases dir <;> simp only [blockStep_cfb_encrypt, blockStep_cfb_decrypt]

/-- The block loop neither reads nor writes `STATUS` and `RESULT`. -/
theorem blockLoop_setOutcome (b : Binding) (n ia oa : Nat) (e : Engine) (m : Memory) (c : StatusCode) (r : Word) :
    blockLoop b n ia oa { e with status := c, result := r } m
      = ({ (blockLoop b n ia oa e m).1 with status := c, result := r }, (blockLoop b n ia oa e m).2) := by
  induction n generalizing ia oa e m with
  | zero => rfl
  | succ n ih => simp only [blockLoop, blockOnce, blockStep_setOutcome, ih]

/-- The action of a transform command comes after any end of an earlier command as if there had been none. -/
theorem transformAction_finish (b : Binding) (s : State) (c : StatusCode) (r : Word) :
    transformAction b (s.finish c r) = ((transformAction b s).1.finish c r, (transformAction b s).2) := by
  simp only [transformAction, State.finish, blockLoop_setOutcome]

theorem createAction_finish (b : Binding) (s : State) (c : StatusCode) (r : Word) :
    createAction b (s.finish c r) = ((createAction b s).1.finish c r, (createAction b s).2) := by
  simp only [createAction, State.finish, Engine.bindTo, Engine.seed, Engine.runFenc, Engine.working]

/-- An action that leaves `STATUS` and `RESULT` to the frame makes a command that does not read them. -/
theorem commandFrame_finish {action : State → State × Word} {s : State} {c : StatusCode} {r : Word}
    (ha : action (s.finish c r) = ((action s).1.finish c r, (action s).2)) (checks : List (Bool × StatusCode)) :
    commandFrame checks action (s.finish c r) = commandFrame checks action s := by
  unfold commandFrame
  rw [ha]
  cases firstFailure checks <;> rfl

theorem createTransform_finish (dir : Direction) (mode : BitVec 2) (macf : Bool) (s : State) (c : StatusCode)
    (r : Word) :
    createTransform dir mode macf (s.finish c r) = createTransform dir mode macf s := by
  unfold createTransform
  cases modeOfField mode with
  | none => rfl
  | some m => exact commandFrame_finish (createAction_finish _ s c r) _

/-- No command reads `STATUS` or `RESULT`. -/
theorem exec_finish (i : Instr) (s : State) (c : StatusCode) (r : Word) : exec i (s.finish c r) = exec i s := by
  cases i with
  | crenc mode macf => exact createTransform_finish _ _ _ s c r
  | crdec mode macf => exact createTransform_finish _ _ _ s c r
  | xblk =>
    simp only [exec_xblk, execXblk, finish_eng_binding, finish_eng_desc, finish_params]
    cases s.eng.binding with
    | none => rfl
    | some b => exact commandFrame_finish (transformAction_finish b s c r) _
  | xfin =>
    simp only [exec_xfin, execXfin, finish_eng_binding, finish_eng_desc, finish_params]
    cases s.eng.binding with
    | none => rfl
    | some b => exact commandFrame_finish (transformAction_finish b s c r) _
  | disp => rfl

/-! ### What a command leaves of the cipher state -/

/-- An access that is no command, no reset and no addressing of an engine leaves `K`, `T`, `FB` and the binding alone; an
illegal command word too. -/
theorem step_eng_of_no_command {s t : State} (h : step s = .next t) (hc : s.nextCommand = none)
    (hreset : ∀ rest, s.inbox ≠ .reset :: rest) (hselect : ∀ n rest, s.inbox ≠ .select n :: rest) :
    t.eng = { s.eng with status := t.eng.status, result := t.eng.result, desc := t.eng.desc } := by
  cases hin : s.inbox with
  | nil =>
    rw [step_idle hin] at h; cases h; rfl
  | cons op rest =>
    rw [step_of_inbox hin] at h
    cases op with
    | writeReg n v =>
      by_cases hn : n = 0
      · subst hn
        rw [hostStep_writeCmd] at h
        rcases issue_cases v { s with inbox := rest } with ⟨i, hi, _⟩ | ⟨_, _, hu⟩
        · simp [nextCommand_eq_some.mpr ⟨v, rest, hin, hi⟩] at hc
        · rw [hu] at h; cases h; rfl
      · rw [hostStep_writeReg hn] at h; cases h; rfl
    | readReg n => cases h; rfl
    | writeMem addr bytes =>
      replace h : hostWriteMem addr bytes { s with inbox := rest } = .next t := h
      rcases hostWriteMem_cases addr bytes { s with inbox := rest } with ⟨_, hu⟩ | ⟨_, hu⟩ <;>
        rw [hu] at h <;> cases h
      rfl
    | readMem addr n =>
      replace h : hostReadMem addr n { s with inbox := rest } = .next t := h
      rcases hostReadMem_cases addr n { s with inbox := rest } with ⟨_, hu⟩ | ⟨_, hu⟩ <;> rw [hu] at h <;> cases h
      rfl
    | select n => exact absurd hin (hselect n rest)
    | reset => exact absurd hin (hreset rest)

/-- A transform command leaves `K`, `T` and the binding alone, and `FB` too unless the engine is bound in OFB or CFB. -/
theorem exec_transform_cipher {i : Instr} (hi : i.isTransform) {s t : State} (h : exec i s = .next t) :
    t.eng.k = s.eng.k ∧ t.eng.t = s.eng.t ∧ t.eng.binding = s.eng.binding ∧
      (t.eng.fb = s.eng.fb ∨ ∃ b, s.eng.binding = some b ∧ b.mode ≠ .ecb) := by
  rcases exec_transform_cases hi s with ⟨code, hu⟩ | ⟨u, hu, hok⟩
  · rw [hu] at h; cases h
    exact ⟨rfl, rfl, rfl, .inl rfl⟩
  · rw [hu] at h; cases h
    obtain ⟨b, hb, rfl, -⟩ := exec_transform_ok hi hu hok
    refine ⟨by simp, by simp, by simp, ?_⟩
    obtain ⟨dir, mode, macf⟩ := b
    by_cases hm : mode = .ecb
    · subst hm
      exact .inl (blockLoop_ecb_fb ..)
    · exact .inr ⟨_, hb, hm⟩

/-- After at least one block in OFB the register is an advanced one, so its high word is not 0. -/
theorem blockLoop_ofb_hiWord {b : Binding} (hb : b.mode = .ofb) {n : Nat} (hn : 0 < n) (ia oa : Nat) (e : Engine)
    (m : Memory) : 1 ≤ (hiWord (blockLoop b n ia oa e m).1.fb).toNat := by
  obtain ⟨k, rfl⟩ := Nat.exists_eq_add_of_le' hn
  obtain ⟨dir, mode, macf⟩ := b
  subst hb
  rw [blockLoop_add]
  simp only [blockLoop, blockOnce, blockStep_ofb, hiWord_advance, toNat_advanceHi]
  omega

/-! ### The host's view of a state -/

section visible
variable (s : State) (e : Engine)
@[simp] theorem visible_params : s.visible.params = s.params := rfl
@[simp] theorem visible_engineId : s.visible.engineId = s.engineId := rfl
@[simp] theorem visible_eng : s.visible.eng = s.eng.visible := rfl
@[simp] theorem visible_inbox : s.visible.inbox = s.inbox := rfl
@[simp] theorem visible_memoryAt (m : Nat) : s.visible.memoryAt m = s.memoryAt m := rfl
@[simp] theorem visible_finish (c : StatusCode) (r : Word) : (s.finish c r).visible = s.visible.finish c r := rfl
@[simp] theorem engine_visible_binding : e.visible.binding = e.binding := rfl
@[simp] theorem engine_visible_visible : e.visible.visible = e.visible := rfl
@[simp] theorem visible_visible : s.visible.visible = s.visible := by simp [State.visible, Function.comp_def]
end visible

theorem visibleAnswer_next_visible (s : State) : visibleAnswer (.next s.visible) = visibleAnswer (.next s) :=
  congrArg Host.Outcome.next (visible_visible s)

theorem visibleAnswer_raise (code : StatusCode) (s : State) :
    visibleAnswer (raise code s.visible) = visibleAnswer (raise code s) :=
  visibleAnswer_next_visible (s.finish code 0)

/-- The host sees whether the next access runs a transform command on a bound engine. -/
theorem runsTransform_visible (s : State) : s.visible.runsTransform ↔ s.runsTransform := Iff.rfl

/-! ### The host's view of a command -/

/-- A command whose action shows the host the same on two states that it sees alike ends with what it sees alike. -/
theorem commandFrame_visible {action : State → State × Word} {s s' : State} (hs : s.visible = s'.visible)
    (hv : (action s).1.visible = (action s').1.visible) (hr : (action s).2 = (action s').2)
    (checks : List (Bool × StatusCode)) :
    visibleAnswer (commandFrame checks action s) = visibleAnswer (commandFrame checks action s') := by
  unfold commandFrame
  cases firstFailure checks with
  | some code => simp only [raise, visibleAnswer, visible_finish, hs]
  | none => simp only [visibleAnswer, visible_finish, hv, hr]

/-- A construction shows the host the new binding and nothing else. -/
theorem createAction_visible (b : Binding) (s : State) :
    (createAction b s).1.visible = { s.visible with eng := { s.visible.eng with binding := some b } } := rfl

/-- Disposal shows the host that the engine is unbound and nothing else. -/
theorem dispose_visible (s : State) :
    State.visible { s with eng := s.eng.dispose }
      = { s.visible with eng := { s.visible.eng with binding := none } } := rfl

/-- A transform shows the host nothing but the data memory. -/
theorem transformAction_visible (b : Binding) (s : State) (m : Memory) :
    { (transformAction b s).1.visible with mem := m } = { s.visible with mem := m } := by
  rw [transformAction_frame]
  rfl

theorem createTransform_visible (dir : Direction) (mode : BitVec 2) (macf : Bool) (s : State) :
    visibleAnswer (createTransform dir mode macf s.visible) = visibleAnswer (createTransform dir mode macf s) := by
  unfold createTransform
  cases modeOfField mode with
  | none => exact visibleAnswer_raise _ s
  | some m =>
    refine commandFrame_visible (visible_visible s) ?_ rfl _
    rw [createAction_visible, createAction_visible, visible_visible]

/-- The answer of a command, other than a transform on a bound engine, is seen from what the host sees of the state. -/
theorem exec_visible {i : Instr} {s : State} (h : i.isTransform → s.eng.binding = none) :
    visibleAnswer (exec i s.visible) = visibleAnswer (exec i s) := by
  cases i with
  | crenc mode macf => exact createTransform_visible _ mode macf s
  | crdec mode macf => exact createTransform_visible _ mode macf s
  | xblk =>
    simp only [exec_xblk, execXblk, visible_eng, engine_visible_binding, h (.inl rfl)]
    exact visibleAnswer_raise _ s
  | xfin =>
    simp only [exec_xfin, execXfin, visible_eng, engine_visible_binding, h (.inr rfl)]
    exact visibleAnswer_raise _ s
  | disp =>
    refine commandFrame_visible (action := fun s => ({ s with eng := s.eng.dispose }, 0)) (visible_visible s) ?_ rfl []
    rw [dispose_visible, dispose_visible, visible_visible]

/-- A transform run under the same checks on a state and on what the host sees of it: the two ends differ, for the host, in
the data memory alone. -/
theorem commandFrame_transform_visible (checks : List (Bool × StatusCode)) (b : Binding) (s : State) :
    ∃ t u, commandFrame checks (transformAction b) s = .next t ∧
      commandFrame checks (transformAction b) s.visible = .next u ∧
      ∀ m, { t.visible with mem := m } = { u.visible with mem := m } := by
  unfold commandFrame
  cases firstFailure checks with
  | some code => exact ⟨_, _, rfl, rfl, fun m => by rw [visible_finish, visible_finish, visible_visible]⟩
  | none =>
    refine ⟨_, _, rfl, rfl, fun m => ?_⟩
    have hseen : { (transformAction b s).1.visible with mem := m }
        = { (transformAction b s.visible).1.visible with mem := m } := by
      rw [transformAction_visible, transformAction_visible, visible_visible]
    exact congrArg (State.finish .ok (BitVec.ofInt 32 s.eng.desc.count)) hseen

/-- The two ends of a transform command on a bound engine, run on a state and on what the host sees of it. -/
theorem exec_transform_visible {i : Instr} (hi : i.isTransform) {s : State} (hb : s.eng.binding ≠ none) :
    ∃ t u, exec i s = .next t ∧ exec i s.visible = .next u ∧
      ∀ m, { t.visible with mem := m } = { u.visible with mem := m } := by
  obtain ⟨b, hb⟩ := Option.ne_none_iff_exists'.mp hb
  have hb' : s.visible.eng.binding = some b := hb
  rcases hi with rfl | rfl
  · rw [exec_xblk, exec_xblk, execXblk_bound hb, execXblk_bound hb']
    exact commandFrame_transform_visible _ b s
  · rw [exec_xfin, exec_xfin, execXfin_bound hb, execXfin_bound hb']
    exact commandFrame_transform_visible _ b s

/-! ### The host's view of a step -/

theorem replaceNumbered_map {α β : Type} (f : α → β) (n : Nat) (entry : Nat × α) (l : List (Nat × α)) :
    replaceNumbered n (entry.1, f entry.2) (l.map fun p => (p.1, f p.2))
      = (replaceNumbered n entry l).map fun p => (p.1, f p.2) := by
  induction l with
  | nil => rfl
  | cons p rest ih =>
    obtain ⟨m, x⟩ := p
    by_cases hm : m = n <;> simp [replaceNumbered, hm, ih]

/-- The engine addressed and the one that takes its place are seen as they are, whichever they are. -/
theorem selectEngine_visible (n : Nat) (s : State) :
    visibleAnswer (selectEngine n s.visible) = visibleAnswer (selectEngine n s) := by
  have hfind : findNumbered n s.visible.peers = (findNumbered n s.peers).map Engine.visible :=
    findNumbered_map (fun _ => Engine.visible) n s.peers
  have hpeers : replaceNumbered n (s.engineId, s.eng.visible) s.visible.peers
      = (replaceNumbered n (s.engineId, s.eng) s.peers).map fun p => (p.1, p.2.visible) :=
    replaceNumbered_map Engine.visible n (s.engineId, s.eng) s.peers
  unfold selectEngine
  simp only [visible_engineId, visible_params, visible_memoryAt, visible_eng, hfind, hpeers]
  by_cases hn : n = s.engineId
  · rw [if_pos hn, if_pos hn, visibleAnswer_next_visible]
  · rw [if_neg hn, if_neg hn]
    cases findNumbered n s.peers with
    | none => rfl
    | some e =>
      cases s.memoryAt (s.params.memoryOf n) with
      | none => rfl
      | some m =>
        symm
        exact (visibleAnswer_next_visible _).symm

/-- The platform's reset leaves the same machine whatever the private state of the engines. -/
theorem platformReset_visible (s : State) : s.visible.platformReset = s.platformReset := by
  simp [State.platformReset, State.visible, Function.comp_def]

theorem issue_visible {w : Word} {s : State}
    (h : ∀ i, decodeWord w = .command i → i.isTransform → s.eng.binding = none) :
    visibleAnswer (issue w s.visible) = visibleAnswer (issue w s) := by
  unfold issue
  cases hw : decodeWord w with
  | command i => exact exec_visible (h i hw)
  | illegal why => exact visibleAnswer_raise _ s

/-- The answer of an access, other than a transform command on a bound engine, is seen from what the host sees of the
state. -/
theorem hostStep_visible {op : HostOp} {s : State}
    (h : ∀ w i, op = .writeReg 0 w → decodeWord w = .command i → i.isTransform → s.eng.binding = none) :
    visibleAnswer (hostStep op s.visible) = visibleAnswer (hostStep op s) := by
  cases op with
  | writeReg n v =>
    by_cases hn : n = 0
    · subst hn
      exact issue_visible fun i => h v i rfl
    · rw [hostStep_writeReg hn, hostStep_writeReg hn]
      exact visibleAnswer_next_visible (s.hostWriteReg n v)
  | readReg n => exact visibleAnswer_next_visible (s.reply (.reg n (s.eng.readReg n)))
  | writeMem addr bytes =>
    simp only [hostStep, hostWriteMem]
    rw [visible_params]
    by_cases hr : rangeExists s.params.memSize addr bytes.length = true
    · rw [if_pos hr, if_pos hr]
      exact visibleAnswer_next_visible { s with mem := Memory.writeBytes s.mem addr bytes }
    · rw [if_neg hr, if_neg hr]
  | readMem addr n =>
    simp only [hostStep, hostReadMem]
    rw [visible_params]
    by_cases hr : rangeExists s.params.memSize addr n = true
    · rw [if_pos hr, if_pos hr]
      exact visibleAnswer_next_visible (s.reply (.mem addr (Memory.readBytes s.mem addr n).toList))
    · rw [if_neg hr, if_neg hr]
  | select n => exact selectEngine_visible n s
  | reset => exact congrArg (fun t => visibleAnswer (.next t)) (platformReset_visible s)

/-- The answer of a step that runs no transform command on a bound engine is seen from what the host sees of the state. -/
theorem step_visible {s : State} (h : ¬ s.runsTransform) :
    visibleAnswer (step s.visible) = visibleAnswer (step s) := by
  cases hin : s.inbox with
  | nil => rw [step_idle hin, step_idle ((visible_inbox s).trans hin), visibleAnswer_next_visible]
  | cons op rest =>
    rw [step_of_inbox hin, step_of_inbox ((visible_inbox s).trans hin)]
    refine hostStep_visible (s := { s with inbox := rest }) fun w i hop hw hi => ?_
    have hcmd : s.nextCommand = some i := nextCommand_eq_some.mpr ⟨w, rest, hop ▸ hin, hw⟩
    by_contra hb
    rcases hi with rfl | rfl
    · exact h ⟨hb, .inl hcmd⟩
    · exact h ⟨hb, .inr hcmd⟩

/-- A step that runs a transform command on a bound engine shows the host the data memory and, beside it, what is seen from
what the host sees of the state. -/
theorem step_transform_visible {s : State} (h : s.runsTransform) :
    ∃ t u, step s = .next t ∧ step s.visible = .next u ∧
      ∀ m, { t.visible with mem := m } = { u.visible with mem := m } := by
  obtain ⟨hb, hcmd⟩ := h
  obtain ⟨i, hi, hcmd⟩ : ∃ i, i.isTransform ∧ s.nextCommand = some i :=
    hcmd.elim (fun h => ⟨_, .inl rfl, h⟩) fun h => ⟨_, .inr rfl, h⟩
  rw [step_of_nextCommand hcmd, step_of_nextCommand (show s.visible.nextCommand = some i from hcmd)]
  exact exec_transform_visible (s := { s with inbox := s.inbox.tail }) hi hb

/-! ### The obligations -/

/-- Settles O52: the host's view of a step is a function of its view of the state, so two machines that it sees alike take
steps that it sees alike; of a transform command on a bound engine this holds beside the data memory. -/
theorem secretsHaveNoReadPath : Obligations.SecretsHaveNoReadPath := by
  intro s s' hv
  refine ⟨fun h => ?_, fun h => ?_⟩
  · have h' : ¬ s'.runsTransform := fun hr =>
      h ((runsTransform_visible s).mp (hv ▸ (runsTransform_visible s').mpr hr))
    rw [← step_visible h, hv, step_visible h']
  · have h' : s'.runsTransform := (runsTransform_visible s').mp (hv ▸ (runsTransform_visible s).mpr h)
    obtain ⟨t, u, ht, hu, htu⟩ := step_transform_visible h
    obtain ⟨t', u', ht', hu', htu'⟩ := step_transform_visible h'
    obtain rfl : u = u' := Host.Outcome.next.inj (hu.symm.trans (hv ▸ hu'))
    exact ⟨t, t', ht, ht', (htu s.mem).trans (htu' s.mem).symm⟩

/-- Settles O7: a write stores in one descriptor register, a read is a reply, a command leaves every descriptor alone. -/
theorem hostRegisterAccess : Obligations.HostRegisterAccess := by
  refine ⟨fun s n v rest hin hn => ?_, fun e => ⟨rfl, fun n hn => readReg_above hn e⟩, fun s n rest hin => ?_,
    fun i s t h => ?_⟩
  · rw [step_of_inbox hin, hostStep_writeReg hn]
    exact ⟨_, rfl, rfl, readReg_write s.eng n v⟩
  · rw [step_of_inbox hin]
    rfl
  · obtain ⟨_, _, _, _, _, _, _, hdesc⟩ := exec_frame h
    exact hdesc

/-- Settles O8: the bits above the fields are 0, and each field is one of finitely many values. -/
theorem statusAndConfigWords : Obligations.StatusAndConfigWords := by
  intro e
  rw [readReg_status, readReg_config]
  refine ⟨fun n => getLsbD_statusWord_high e.status, by cases e.status <;> rfl,
    fun n => getLsbD_configWord_high e.binding, ?_⟩
  cases e.binding with
  | none => exact ⟨by decide, rfl, fun _ => rfl, nofun⟩
  | some b =>
    obtain ⟨hbound, hdir, hmode, hmacf⟩ := configWord_fields b
    rw [hmode]
    refine ⟨modeCode_ne_three b.mode, hbound, nofun, fun b' h => ?_⟩
    cases h
    exact ⟨hdir, hmacf, by cases b.mode <;> rfl⟩

/-- Settles O17, by the command: its checks read no outcome, and its action leaves the outcome to the frame. -/
theorem noCommandReadsStatus : Obligations.NoCommandReadsStatus := exec_finish

/-- Settles O38: a count above 0 is at least one block, and the last block leaves an advanced register. -/
theorem ofbHighWordNeverZero : Obligations.OfbHighWordNeverZero := by
  intro i s t b hi hb hm h hok hpos
  obtain ⟨b', hb', rfl, h0, h8, -⟩ := exec_transform_ok hi h hok
  obtain rfl : b = b' := Option.some.inj (hb.symm.trans hb')
  obtain ⟨hcount, hnat⟩ := count_toNat h0
  exact blockLoop_ofb_hiWord hm (by omega) _ _ s.eng s.mem

/-- Settles O51: short of a command nothing writes the cipher state, and of the commands left only a transform may. -/
theorem onlyTheseChangeCipherState : Obligations.OnlyTheseChangeCipherState := by
  intro s t h hreset hselect hcrenc hcrdec hdisp
  cases hc : s.nextCommand with
  | none =>
    rw [step_eng_of_no_command h hc hreset hselect]
    exact ⟨rfl, rfl, rfl, .inl rfl⟩
  | some i =>
    have hi : i.isTransform := by
      cases i with
      | crenc mode macf => exact absurd hc (hcrenc mode macf)
      | crdec mode macf => exact absurd hc (hcrdec mode macf)
      | xblk => exact .inl rfl
      | xfin => exact .inr rfl
      | disp => exact absurd hc hdisp
    rw [step_of_nextCommand hc] at h
    obtain ⟨hk, ht, hb, hfb⟩ := exec_transform_cipher hi h
    exact ⟨hk, ht, hb, hfb.imp_right fun hmode => ⟨⟨i, rfl, hi⟩, hmode⟩⟩

/-- Settles O10: the reset engine is unbound, with its other registers 0. -/
theorem resetRegistersAreZero : Obligations.ResetRegistersAreZero :=
  ⟨readReg_eq_zero rfl rfl rfl rfl, rfl, rfl, rfl⟩

end Sys2Proof.Machine
end

section
/-! PROOFS. The data memory: what the host reads back of what it wrote, and that a transform is a function of the cipher
state and its input bytes. The second goes through the block loop run twice, by two engines with the same cipher state
over equal input bytes: a block leaves the input still to come as it was, and the blocks after it leave its output. -/

namespace Sys2Proof

/-- A read of the range just written brings back the list of bytes that was written. -/
theorem toList_readBytes_writeBytes {m : Memory} (hm : Memory.wf m = true) (addr : Nat) (bytes : List Byte) :
    (Memory.readBytes (Memory.writeBytes m addr bytes) addr bytes.length).toList = bytes :=
  congrArg Vector.toList (readBytes_writeBytes_same hm addr ⟨bytes.toArray, bytes.size_toArray⟩)

/-- The `n` bytes of `m'` from `a'` are those of `m` from `a`. -/
def Memory.SameBytes (n : Nat) (m : Memory) (a : Nat) (m' : Memory) (a' : Nat) : Prop :=
  ∀ j < n, Memory.read m' (a' + j) = Memory.read m (a + j)

theorem readBytes_eq_of_sameBytes {n : Nat} {m m' : Memory} {a a' : Nat} (h : Memory.SameBytes n m a m' a') :
    Memory.readBytes m' a' n = Memory.readBytes m a n := by
  ext i hi
  rw [getElem_readBytes, getElem_readBytes, h i hi]

/-- Ranges that hold the same bytes in two parts, one after the other. -/
theorem sameBytes_add {k n : Nat} {m m' : Memory} {a a' : Nat} :
    Memory.SameBytes (k + n) m a m' a' ↔
      Memory.SameBytes k m a m' a' ∧ Memory.SameBytes n m (a + k) m' (a' + k) := by
  refine ⟨fun h => ⟨fun j hj => h j (by omega), fun j hj => ?_⟩, fun ⟨hfst, hsnd⟩ j hj => ?_⟩
  · rw [Nat.add_assoc, Nat.add_assoc]
    exact h (k + j) (by omega)
  · by_cases hk : j < k
    · exact hfst j hk
    · obtain ⟨i, rfl⟩ := Nat.exists_eq_add_of_le (Nat.le_of_not_lt hk)
      rw [← Nat.add_assoc, ← Nat.add_assoc]
      exact hsnd i (by omega)

end Sys2Proof

namespace Sys2Proof.Machine

open Sys2Proof

/-! ### Host accesses to a range that exists -/

theorem hostStep_writeMem {s : State} {addr : Nat} {bytes : List Byte} (h : addr + bytes.length ≤ s.params.memSize) :
    hostStep (.writeMem addr bytes) s = .next { s with mem := Memory.writeBytes s.mem addr bytes } :=
  if_pos (by simp [rangeExists, h])

theorem hostStep_readMem {s : State} {addr n : Nat} (h : addr + n ≤ s.params.memSize) :
    hostStep (.readMem addr n) s = .next (s.reply (.mem addr (Memory.readBytes s.mem addr n).toList)) :=
  if_pos (by simp [rangeExists, h])

/-! ### Two engines with the same cipher state -/

/-- The two engines hold the same `K`, `T` and `FB`. -/
def Engine.SameCipher (e e' : Engine) : Prop := e'.k = e.k ∧ e'.t = e.t ∧ e'.fb = e.fb

/-- A block step leaves `K` and `T` as they are. -/
theorem blockStep_keys (b : Binding) (x : Block) (e : Engine) :
    (e.blockStep b x).1.k = e.k ∧ (e.blockStep b x).1.t = e.t := by
  rw [blockStep_frame]
  exact ⟨rfl, rfl⟩

/-- The output block and the next `FB` of a block step are a function of the cipher state and the input block. -/
theorem blockStep_sameCipher {e e' : Engine} (he : e.SameCipher e') (b : Binding) (x : Block) :
    (e.blockStep b x).1.SameCipher (e'.blockStep b x).1 ∧ (e'.blockStep b x).2 = (e.blockStep b x).2 := by
  obtain ⟨hk, ht, hfb⟩ := he
  obtain ⟨hk₁, ht₁⟩ := blockStep_keys b x e
  obtain ⟨hk₂, ht₂⟩ := blockStep_keys b x e'
  rw [Engine.SameCipher, hk₁, ht₁, hk₂, ht₂, and_assoc, and_assoc]
  refine ⟨hk, ht, ?_⟩
  obtain ⟨dir, mode, macf⟩ := b
  cases mode with
  | ecb => cases dir <;> simp only [blockStep_ecb_encrypt, blockStep_ecb_decrypt, hk, ht, hfb, and_self]
  | ofb => simp only [blockStep_ofb, hk, ht, hfb, and_self]
  | cfb => cases dir <;> simp only [blockStep_cfb_encrypt, blockStep_cfb_decrypt, hk, ht, hfb, and_self]

/-! ### The block loop, in place or to a range apart from its input -/

/-- The `n` bytes from `oa` are the `n` bytes from `ia`, or share none with them. -/
def InPlaceOrApart (n ia oa : Nat) : Prop := oa = ia ∨ oa + n ≤ ia ∨ ia + n ≤ oa

/-- What is left of both ranges after their first block is again in place or apart. -/
theorem inPlaceOrApart_tail {n ia oa : Nat} (h : InPlaceOrApart (8 + n) ia oa) :
    InPlaceOrApart n (ia + 8) (oa + 8) := by
  unfold InPlaceOrApart at h ⊢
  omega

/-- A block leaves the input of the blocks after it as it was. -/
theorem blockOnce_keeps_rest (b : Binding) {n ia oa : Nat} (h : InPlaceOrApart (8 + n) ia oa) (e : Engine)
    {m : Memory} (hm : Memory.wf m = true) :
    Memory.SameBytes n m (ia + 8) (blockOnce b ia oa e m).2 (ia + 8) := by
  intro j hj
  refine read_writeBytes_outside hm _ _ ?_
  simp only [Vector.length_toList]
  rcases h with h | h | h <;> omega

/-- The blocks after the first leave the output of the first. -/
theorem blockLoop_first_output (b : Binding) (n ia oa : Nat) (e : Engine) {m : Memory} (hm : Memory.wf m = true)
    {j : Nat} (hj : j < 8) :
    Memory.read (blockLoop b (n + 1) ia oa e m).2 (oa + j)
      = (e.blockStep b (Memory.readBytes m ia 8)).2[j] := by
  have hm₁ : Memory.wf (blockOnce b ia oa e m).2 = true := wf_writeBytes hm _ _
  rw [blockLoop, blockLoop_outside b n _ _ _ hm₁ (by omega), ← getElem_readBytes _ _ 8 _ hj]
  simp only [blockOnce, readBytes_writeBytes_same hm]

/-- The block loop run by two engines with the same cipher state over equal input bytes, each in place or apart: equal
cipher states and equal output bytes. -/
theorem blockLoop_sameCipher (b : Binding) {n ia oa ia' oa' : Nat} {e e' : Engine} {m m' : Memory}
    (he : e.SameCipher e') (hm : Memory.wf m = true) (hm' : Memory.wf m' = true)
    (h : InPlaceOrApart (8 * n) ia oa) (h' : InPlaceOrApart (8 * n) ia' oa')
    (hin : Memory.SameBytes (8 * n) m ia m' ia') :
    (blockLoop b n ia oa e m).1.SameCipher (blockLoop b n ia' oa' e' m').1 ∧
      Memory.SameBytes (8 * n) (blockLoop b n ia oa e m).2 oa (blockLoop b n ia' oa' e' m').2 oa' := by
  induction n generalizing ia oa ia' oa' e e' m m' with
  | zero => exact ⟨he, nofun⟩
  | succ n ih =>
    rw [show 8 * (n + 1) = 8 + 8 * n by omega] at h h' hin ⊢
    obtain ⟨hfst, hrest⟩ := sameBytes_add.mp hin
    have hx := readBytes_eq_of_sameBytes hfst
    obtain ⟨hcipher, hout⟩ := blockStep_sameCipher he b (Memory.readBytes m ia 8)
    have hengines : (blockOnce b ia oa e m).1.SameCipher (blockOnce b ia' oa' e' m').1 := by
      simp only [blockOnce, hx]
      exact hcipher
    have hinput : Memory.SameBytes (8 * n) (blockOnce b ia oa e m).2 (ia + 8)
        (blockOnce b ia' oa' e' m').2 (ia' + 8) := fun j hj => by
      rw [blockOnce_keeps_rest b h' e' hm' j hj, hrest j hj, blockOnce_keeps_rest b h e hm j hj]
    obtain ⟨hfinal, hlater⟩ := ih hengines (wf_writeBytes hm _ _) (wf_writeBytes hm' _ _)
      (inPlaceOrApart_tail h) (inPlaceOrApart_tail h') hinput
    refine ⟨hfinal, sameBytes_add.mpr ⟨fun j hj => ?_, hlater⟩⟩
    rw [blockLoop_first_output b n ia oa e hm hj, blockLoop_first_output b n ia' oa' e' hm' hj, hx, hout]

/-- With legal arguments the start addresses are natural numbers, and the condition on the ranges is one on them. -/
theorem inPlaceOrApart_of_legal {d : Descriptors} (ha : d.xblkArgsLegal) (h : d.inPlaceOrDisjoint) :
    InPlaceOrApart d.inCnt.toNat d.inStart.toNat d.outStart.toNat := by
  obtain ⟨hpos, _, hin, hout, _, _⟩ := ha
  have hcount := (count_toNat (d := d) (by omega)).2
  unfold Descriptors.inPlaceOrDisjoint at h
  unfold InPlaceOrApart
  simp only [Descriptors.inStart, Descriptors.outStart, sint_eq_toInt, uint] at h ⊢
  omega

/-- An `XBLK` that ends with `OK` is a loop of whole blocks over legal arguments. -/
theorem exec_xblk_ok {s t : State} {b : Binding} (hb : s.eng.binding = some b) (h : exec .xblk s = .next t)
    (hok : t.eng.status = .ok) :
    s.eng.desc.xblkArgsLegal ∧ ∃ n, s.eng.desc.inCnt.toNat = 8 * n ∧
      t.eng.fb = (blockLoop b n s.eng.desc.inStart.toNat s.eng.desc.outStart.toNat s.eng s.mem).1.fb ∧
      t.mem = (blockLoop b n s.eng.desc.inStart.toNat s.eng.desc.outStart.toNat s.eng s.mem).2 := by
  have hlegal : s.eng.desc.xblkArgsLegal := by
    by_contra hn
    obtain rfl := Host.Outcome.next.inj ((execXblk_errArg hb hn).symm.trans (exec_xblk s ▸ h))
    cases hok
  obtain ⟨b', hb', rfl, h0, h8, -⟩ := exec_transform_ok (.inl rfl) h hok
  obtain rfl : b = b' := Option.some.inj (hb.symm.trans hb')
  obtain ⟨hcount, hnat⟩ := count_toNat h0
  refine ⟨hlegal, s.eng.desc.inCnt.toNat / 8, by omega, ?_⟩
  simp only [transformAction, hcount, finish_eng_fb, finish_mem, and_self]

/-! ### The obligations -/

/-- Settles O9, by the two accesses one after the other: the write, and the read of the range just written. -/
theorem hostMemoryReadsBackWhatWasWritten : Obligations.HostMemoryReadsBackWhatWasWritten := by
  intro s addr bytes rest hin hm hend
  refine ⟨_, _, (step_of_inbox hin).trans (hostStep_writeMem hend),
    (step_of_inbox rfl).trans (hostStep_readMem hend), ?_, fun a ha => read_writeBytes_outside hm addr bytes ha⟩
  simp only [State.reply, toList_readBytes_writeBytes hm]

/-- Settles O55: both commands are loops of the same number of blocks, by engines with the same cipher state. -/
theorem transformDependsOnInputAlone : Obligations.TransformDependsOnInputAlone := by
  intro s s' t t' b hb hb' hk ht hfb hcnt hm hm' hrange hrange' hin hx hok hx' hok'
  obtain ⟨hlegal, n, hn, htfb, htmem⟩ := exec_xblk_ok hb hx hok
  obtain ⟨hlegal', n', hn', htfb', htmem'⟩ := exec_xblk_ok hb' hx' hok'
  have hapart := inPlaceOrApart_of_legal hlegal hrange
  have hapart' := inPlaceOrApart_of_legal hlegal' hrange'
  obtain rfl : n' = n := by rw [hcnt] at hn'; omega
  rw [hn] at hin hapart ⊢
  rw [hn'] at hapart'
  rw [htfb, htmem, htfb', htmem']
  obtain ⟨⟨_, _, hfb⟩, hout⟩ := blockLoop_sameCipher b ⟨hk, ht, hfb⟩ hm hm' hapart hapart' hin
  exact ⟨hfb, hout⟩

end Sys2Proof.Machine
end

section
/-! PROOFS. The command word: the decoder and the encoder undo each other, the decoder selects by the masks of the opcode
map, and what the write of a legal and of an illegal word to `CMD` does. -/

namespace Sys2Proof

open Laws.EncodingMatchesRow (rowMask rowMatch)

/-! ### A word and its four fields -/

/-- A bitwise and of two words is taken field by field. -/
theorem packWord_and (rsv rsv' : BitVec 21) (macf macf' : Bool) (mode mode' : BitVec 2) (op op' : BitVec 8) :
    packWord rsv macf mode op &&& packWord rsv' macf' mode' op'
      = packWord (rsv &&& rsv') (macf && macf') (mode &&& mode') (op &&& op') := by
  apply BitVec.eq_of_getLsbD_eq
  intro i _
  simp only [BitVec.getLsbD_and, getLsbD_packWord]
  split_ifs <;> rfl

/-- The mask of the create rows keeps the fields `RSV` and `OP` (R92). -/
theorem and_createMask (w : Word) : w &&& 0xFFFFF8FF#32 = packWord (fieldRsv w) false 0 (fieldOp w) := by
  have hmask : 0xFFFFF8FF#32 = packWord (BitVec.allOnes 21) false 0 (BitVec.allOnes 8) := by decide
  conv_lhs => rw [← packWord_fields w, hmask, packWord_and]
  simp only [BitVec.and_allOnes, Bool.and_false, BitVec.ofNat_eq_ofNat, BitVec.and_zero]

/-- A word that a create row matches is packed from the row's opcode and the word's own mode and flag. -/
theorem packWord_of_createMask {w : Word} {op : BitVec 8} (h : w &&& 0xFFFFF8FF#32 = packWord 0 false 0 op) :
    packWord 0 (fieldMacf w) (fieldMode w) op = w := by
  rw [and_createMask] at h
  have hrsv : fieldRsv w = 0 := by simpa using congrArg fieldRsv h
  have hop : fieldOp w = op := by simpa using congrArg fieldOp h
  rw [← hrsv, ← hop, packWord_fields]

theorem and_plainMask (w : Word) : w &&& 0xFFFFFFFF#32 = w := BitVec.and_allOnes

/-! ### Decoder and encoder -/

@[simp] theorem decodeWord_encode (i : Instr) : decodeWord (encode i) = .command i := by
  cases i <;> simp [encode, decodeWord, unlessReserved]

/-- Only its encoding decodes to a command: the fields that the decoder read or found 0 are all of the word. -/
theorem encode_of_decodeWord {w : Word} {i : Instr} (h : decodeWord w = .command i) : encode i = w := by
  have hw := packWord_fields w
  unfold decodeWord at h
  split_ifs at h with hop hop hop hop hop
  all_goals
    obtain ⟨hbad, rfl⟩ := unlessReserved_eq_command.mp h
    simp only [Bool.or_eq_false_iff, bne_eq_false_iff_eq] at hbad
  · rwa [hbad, hop] at hw
  · rwa [hbad, hop] at hw
  all_goals
    obtain ⟨⟨hrsv, hmacf⟩, hmode⟩ := hbad
    rwa [hrsv, hmacf, hmode, hop] at hw

theorem decodeWord_eq_command_iff {w : Word} {i : Instr} : decodeWord w = .command i ↔ encode i = w :=
  ⟨encode_of_decodeWord, fun h => h ▸ decodeWord_encode i⟩

/-! ### Decoder and opcode map (R92) -/

theorem encode_matchesRow (i : Instr) : encode i &&& rowMask i = rowMatch i := by
  cases i with
  | crenc mode macf => exact Laws.EncodingMatchesRow.crenc mode macf
  | crdec mode macf => exact Laws.EncodingMatchesRow.crdec mode macf
  | xblk => exact Laws.EncodingMatchesRow.xblk
  | xfin => exact Laws.EncodingMatchesRow.xfin
  | disp => exact Laws.EncodingMatchesRow.disp

/-- A word that decodes to a command is matched by the command's row. -/
theorem matchesRow_of_decodeWord {w : Word} {i : Instr} (h : decodeWord w = .command i) :
    w &&& rowMask i = rowMatch i := encode_of_decodeWord h ▸ encode_matchesRow i

theorem decodeWord_crenc_iff (w : Word) :
    decodeWord w = .command (.crenc (fieldMode w) (fieldMacf w)) ↔ w &&& 0xFFFFF8FF#32 = 0x00000001#32 :=
  ⟨matchesRow_of_decodeWord, fun h => decodeWord_eq_command_iff.mpr (packWord_of_createMask h)⟩

theorem decodeWord_crdec_iff (w : Word) :
    decodeWord w = .command (.crdec (fieldMode w) (fieldMacf w)) ↔ w &&& 0xFFFFF8FF#32 = 0x00000002#32 :=
  ⟨matchesRow_of_decodeWord, fun h => decodeWord_eq_command_iff.mpr (packWord_of_createMask h)⟩

/-- A command whose row masks no bit is encoded by the row's match value alone. -/
theorem decodeWord_plain_iff {i : Instr} (hmask : rowMask i = 0xFFFFFFFF#32) (w : Word) :
    decodeWord w = .command i ↔ w &&& 0xFFFFFFFF#32 = rowMatch i := by
  have hi : encode i = rowMatch i := by rw [← encode_matchesRow i, hmask, and_plainMask]
  rw [decodeWord_eq_command_iff, hi, and_plainMask, eq_comm]

theorem decodeWord_eq_illegal_iff (w : Word) :
    (∃ why, decodeWord w = .illegal why) ↔ ∀ i, decodeWord w ≠ .command i := by
  cases decodeWord w <;> simp

/-- A word is legal exactly when one of the five rows matches it. -/
theorem exists_decodeWord_iff (w : Word) :
    (∃ i, decodeWord w = .command i) ↔
      w &&& 0xFFFFF8FF#32 = 0x00000001#32 ∨ w &&& 0xFFFFF8FF#32 = 0x00000002#32 ∨
        w &&& 0xFFFFFFFF#32 = 0x00000010#32 ∨ w &&& 0xFFFFFFFF#32 = 0x00000011#32 ∨
        w &&& 0xFFFFFFFF#32 = 0x0000001F#32 := by
  constructor
  · rintro ⟨i, hi⟩
    have hrow := matchesRow_of_decodeWord hi
    cases i with
    | crenc => exact .inl hrow
    | crdec => exact .inr (.inl hrow)
    | xblk => exact .inr (.inr (.inl hrow))
    | xfin => exact .inr (.inr (.inr (.inl hrow)))
    | disp => exact .inr (.inr (.inr (.inr hrow)))
  · rintro (h | h | h | h | h)
    · exact ⟨_, (decodeWord_crenc_iff w).mpr h⟩
    · exact ⟨_, (decodeWord_crdec_iff w).mpr h⟩
    · exact ⟨.xblk, (decodeWord_plain_iff rfl w).mpr h⟩
    · exact ⟨.xfin, (decodeWord_plain_iff rfl w).mpr h⟩
    · exact ⟨.disp, (decodeWord_plain_iff rfl w).mpr h⟩

end Sys2Proof

namespace Sys2Proof.Machine

open Sys2Proof

/-! ### The write of a command word -/

theorem step_of_command {s : State} {w : Word} {i : Instr} {rest : List HostOp} (hin : s.inbox = .writeReg 0 w :: rest)
    (hw : decodeWord w = .command i) : step s = exec i { s with inbox := rest } := by
  rw [step_of_nextCommand (nextCommand_eq_some.mpr ⟨w, rest, hin, hw⟩), hin, List.tail_cons]

theorem step_of_illegal {s : State} {w : Word} {rest : List HostOp} (hin : s.inbox = .writeReg 0 w :: rest)
    (hw : ∀ i, decodeWord w ≠ .command i) : step s = .next (State.finish .errCmd 0 { s with inbox := rest }) := by
  rw [step_of_inbox hin, hostStep_writeCmd]
  rcases issue_cases w { s with inbox := rest } with ⟨i, hi, -⟩ | ⟨-, -, hissue⟩
  · exact absurd hi (hw i)
  · exact hissue

/-- The whole of a 32-bit word is placed. -/
theorem withFetchWord_inbox_toNat (s : State) (w : Word) :
    (s.withFetchWord 32 w.toNat).inbox = .writeReg 0 w :: s.inbox := by
  rw [withFetchWord_inbox, Nat.mod_eq_of_lt w.isLt, BitVec.ofNat_toNat, BitVec.setWidth_eq]

/-! ### The obligations -/

/-- Settles O2: a packed word gives its fields back, and a word is packed from its fields. -/
theorem decodeAndEncodeAgree : Obligations.DecodeAndEncodeAgree := fun _ _ => decodeWord_eq_command_iff

/-- Settles O1: a word that a row matches is an encoding of the row's command, and an encoding is matched by its row. -/
theorem decodeFollowsOpcodeMap : Obligations.DecodeFollowsOpcodeMap := by
  intro w
  refine ⟨decodeWord_crenc_iff w, decodeWord_crdec_iff w, decodeWord_plain_iff rfl w, decodeWord_plain_iff rfl w,
    decodeWord_plain_iff rfl w, ?_⟩
  rw [decodeWord_eq_illegal_iff, ← exists_decodeWord_iff, not_exists]

/-- Settles O5: such a word decodes to no command, so its write raises `ERR_CMD`. -/
theorem illegalWordEndsWithErrCmd : Obligations.IllegalWordEndsWithErrCmd := by
  intro s w rest hin hcrenc hcrdec hxblk hxfin hdisp
  refine step_of_illegal hin fun i hi => ?_
  have hrows := (exists_decodeWord_iff w).mp ⟨i, hi⟩
  simp only [and_plainMask] at hrows
  rcases hrows with h | h | h | h | h
  exacts [hcrenc h, hcrdec h, hxblk h, hxfin h, hdisp h]

/-- Settles O3: the ten legal words are the encodings of their commands; the five illegal ones are run. -/
theorem workedEncodingsDecode : Obligations.WorkedEncodingsDecode :=
  ⟨decodeWord_encode (.crenc 0 false), decodeWord_encode (.crenc 1 false), decodeWord_encode (.crenc 2 false),
    decodeWord_encode (.crenc 3 false), decodeWord_encode (.crenc 2 true), decodeWord_encode (.crdec 0 false),
    decodeWord_encode (.crdec 1 true), decodeWord_encode .xblk, decodeWord_encode .xfin, decodeWord_encode .disp,
    by decide, by decide, by decide, by decide, by decide⟩

/-- Settles O4: a word placed as the next instruction is the write of that word to `CMD`, before the accesses that wait. -/
theorem stepRunsDecodedCommand : Obligations.StepRunsDecodedCommand :=
  ⟨fun _ _ _ _ hin hw => step_of_command hin hw,
    fun s w _ hw => step_of_command (withFetchWord_inbox_toNat s w) hw⟩

end Sys2Proof.Machine
end

section
/-! PROOFS. The key schedule and the lookup tables. The key schedule is undone by cutting its words into bytes. A table is
its two groups side by side on the two nibbles of a byte, so it is a bijection when they are, and a bit of the round
function is a bit of one group's entry. A construction that succeeds leaves both made from the material in memory. -/

namespace Sys2Proof.Machine

open Sys2Proof

/-! ### Key words and key bytes (R120) -/

theorem getElem_keySched (key : Bytes 32) (i : Nat) (h : i < 8) :
    (keySched key)[i] = le32 key[4 * i] key[4 * i + 1] key[4 * i + 2] key[4 * i + 3] := getElem_tabulate _ i h

/-- The key string whose bytes `4 i` to `4 i + 3` are those of word `i`. -/
def keyBytes (k : KeyWords) : Bytes 32 := tabulate fun n => byteOf k[n.val / 4] (n.val % 4)

theorem getElem_keyBytes (k : KeyWords) (i r : Nat) (hi : i < 8) (hr : r < 4) :
    (keyBytes k)[4 * i + r] = byteOf k[i] r := by
  simp [keyBytes, show (4 * i + r) / 4 = i by omega, show (4 * i + r) % 4 = r by omega]

theorem keyBytes_keySched (key : Bytes 32) : keyBytes (keySched key) = key := by
  ext1 n hn
  obtain ⟨i, r, hr, rfl⟩ : ∃ i r, r < 4 ∧ n = 4 * i + r := ⟨n / 4, n % 4, by omega, by omega⟩
  rw [getElem_keyBytes _ i r (by omega) hr, getElem_keySched]
  match r, hr with
  | 0, _ => exact byteOf_le32_0 ..
  | 1, _ => exact byteOf_le32_1 ..
  | 2, _ => exact byteOf_le32_2 ..
  | 3, _ => exact byteOf_le32_3 ..

theorem keySched_keyBytes (k : KeyWords) : keySched (keyBytes k) = k := by
  ext1 i hi
  have hbyte (r : Nat) (hr : r < 4) := getElem_keyBytes k i r hi hr
  have hfirst : (keyBytes k)[4 * i] = byteOf k[i] 0 := hbyte 0 (by omega)
  rw [getElem_keySched, hfirst, hbyte 1 (by omega), hbyte 2 (by omega), hbyte 3 (by omega), le32_byteOf]

/-- A key of equal bytes gives equal words. -/
theorem keySched_replicate (b : Byte) : keySched (Vector.replicate 32 b) = Vector.replicate 8 (le32 b b b b) := by
  ext1 i hi
  simp only [getElem_keySched, Vector.getElem_replicate]

/-! ### A byte and its two nibbles -/

/-- The entry of a group for a nibble. -/
def groupEntry (group : Vector Nibble 16) (e : Nibble) : Nibble := group[e.toNat]'(by have := e.isLt; omega)

/-- A byte is its two nibbles, the high one first. -/
def nibblePair : Byte ≃ Nibble × Nibble where
  toFun b := (b.extractLsb' 4 4, b.extractLsb' 0 4)
  invFun p := p.1 ++ p.2
  left_inv _ := BitVec.extractLsb'_append_extractLsb'
  right_inv _ := Prod.ext BitVec.extractLsb'_append_eq_left BitVec.extractLsb'_append_eq_right

theorem toNat_append_nibble (hi lo : Nibble) : (hi ++ lo).toNat = 16 * hi.toNat + lo.toNat := by
  rw [BitVec.toNat_append, ← Nat.shiftLeft_add_eq_or_of_lt lo.isLt, Nat.shiftLeft_eq]
  omega

theorem toNat_highNibble (b : Byte) : (b.extractLsb' 4 4).toNat = b.toNat / 16 := by
  rw [BitVec.extractLsb'_toNat, Nat.shiftRight_eq_div_pow]
  omega

theorem toNat_lowNibble (b : Byte) : (b.extractLsb' 0 4).toNat = b.toNat % 16 := BitVec.extractLsb'_toNat ..

/-! ### The groups and the tables (R122 to R124) -/

theorem toNat_entryOf_lowFirst (e : Nat) (byte : Byte) :
    (entryOf .lowFirst e byte).toNat = if e % 2 = 0 then byte.toNat % 16 else byte.toNat / 16 := by
  simp only [entryOf, apply_ite BitVec.toNat, toNat_lowNibble, toNat_highNibble]

theorem toNat_entryOf_highFirst (e : Nat) (byte : Byte) :
    (entryOf .highFirst e byte).toNat = if e % 2 = 0 then byte.toNat / 16 else byte.toNat % 16 := by
  simp only [entryOf, apply_ite BitVec.toNat, toNat_lowNibble, toNat_highNibble]

theorem getElem_sboxUnpack (order : NibbleOrder) (sbox : Bytes 64) (g e : Nat) (hg : g < 8) (he : e < 16) :
    (sboxUnpack order sbox)[g][e] = entryOf order e sbox[8 * g + e / 2] := by
  simp [sboxUnpack]

theorem getElem_sboxBuild (pairing : Vector (Fin 8 × Fin 8) 4) (groups : Groups) (i b : Nat) (hi : i < 4)
    (hb : b < 256) :
    (sboxBuild pairing groups)[i][b]
      = groups[pairing[i].1][b / 16] ++ groups[pairing[i].2][b % 16] := by
  simp [sboxBuild]

/-- A table puts each nibble of the byte through its group. -/
theorem lookup_sboxBuild (pairing : Vector (Fin 8 × Fin 8) 4) (groups : Groups) (i : Nat) (hi : i < 4) (b : Byte) :
    lookup (sboxBuild pairing groups)[i] b
      = groupEntry groups[pairing[i].1] (b.extractLsb' 4 4) ++ groupEntry groups[pairing[i].2] (b.extractLsb' 0 4) := by
  simp only [lookup, getElem_sboxBuild, groupEntry, toNat_highNibble, toNat_lowNibble]

/-- A table is its two groups side by side. -/
theorem lookup_sboxBuild_eq_comp (pairing : Vector (Fin 8 × Fin 8) 4) (groups : Groups) (i : Fin 4) :
    (fun b : Byte => lookup (sboxBuild pairing groups)[i] b)
      = nibblePair.symm ∘ Prod.map (groupEntry groups[pairing[i].1]) (groupEntry groups[pairing[i].2]) ∘ nibblePair :=
  funext (lookup_sboxBuild pairing groups i i.isLt)

/-! ### Bits of the round function (R140) -/

theorem getLsbD_byteOf (w : Word) (j b : Nat) (hb : b < 8) : (byteOf w j).getLsbD b = w.getLsbD (8 * j + b) := by
  simp [byteOf, hb]

theorem getLsbD_rotl32 (v : Word) {n i : Nat} (hn : n < 32) (hi : i < 32) :
    (rotl32 v n).getLsbD ((i + n) % 32) = v.getLsbD i := by
  have hrot : rotl32 v n = v.rotateLeft n := by rw [rotl32, BitVec.rotateLeft_def, Nat.mod_eq_of_lt hn]
  rw [hrot, BitVec.getLsbD_rotateLeft_of_le hn]
  by_cases hwrap : i + n < 32
  · simp [Nat.mod_eq_of_lt hwrap, show ¬ i + n < n by omega, hwrap]
  · rw [show (i + n) % 32 = i + n - 32 by omega]
    simp [show i + n - 32 < n by omega, show 32 - n + (i + n - 32) = i by omega]

theorem byteOf_substitute (t : Tables) (x : Word) (j : Nat) (hj : j < 4) :
    byteOf (substitute t x) j = lookup t[j] (byteOf x j) := by
  match j, hj with
  | 0, _ => exact byteOf_le32_0 ..
  | 1, _ => exact byteOf_le32_1 ..
  | 2, _ => exact byteOf_le32_2 ..
  | 3, _ => exact byteOf_le32_3 ..

/-- A bit of the round function is a bit of the table entry for the byte that the rotation took it from. -/
theorem getLsbD_roundF (t : Tables) (x : Word) {j b : Nat} (hj : j < 4) (hb : b < 8) :
    (roundF t x).getLsbD ((8 * j + b + 11) % 32) = (lookup t[j] (byteOf x j)).getLsbD b := by
  rw [roundF, getLsbD_rotl32 _ (by omega) (by omega), ← byteOf_substitute, getLsbD_byteOf _ _ _ hb]

/-- Nibble `n` of byte `j` of a word is the word's nibble `2 j + n`. -/
theorem toNat_nibble_byteOf (x : Word) (j : Nat) {n : Nat} (hn : n < 2) :
    ((byteOf x j).extractLsb' (4 * n) 4).toNat = x.toNat / 2 ^ (4 * (2 * j + n)) % 16 := by
  rw [show 4 * (2 * j + n) = 8 * j + 4 * n by omega, Nat.pow_add, ← Nat.div_div_eq_div_mul, BitVec.extractLsb'_toNat,
    toNat_byteOf, Nat.shiftRight_eq_div_pow]
  match n, hn with
  | 0, _ => omega
  | 1, _ => omega

/-- A group's entry for a nibble of a word, found in the word or in its byte. -/
theorem groupEntry_byteOf (group : Vector Nibble 16) (x : Word) (j : Nat) {n : Nat} (hn : n < 2) :
    groupEntry group ((byteOf x j).extractLsb' (4 * n) 4) = group[x.toNat / 2 ^ (4 * (2 * j + n)) % 16] :=
  getElem_congr_idx (toNat_nibble_byteOf x j hn)

/-! ### The material of a construction (R122, R186) -/

/-- A construction that succeeds ran its derivation on the material in memory. -/
theorem exec_create_ok {i : Instr} {mode : BitVec 2} {macf : Bool} (hi : i = .crenc mode macf ∨ i = .crdec mode macf)
    {s t : State} (h : exec i s = .next t) (hok : t.eng.status = .ok) :
    ∃ b, t = (createAction b s).1.finish .ok 0 := by
  have create : ∀ dir, createTransform dir mode macf s = .next t → ∃ b, t = (createAction b s).1.finish .ok 0 := by
    intro dir hc
    rcases createTransform_cases dir mode macf s with ⟨code, hcode, hu⟩ | ⟨m, _, _, hu⟩
    · obtain rfl := Host.Outcome.next.inj (hu.symm.trans hc)
      obtain rfl : code = .ok := hok
      simp at hcode
    · exact ⟨_, Host.Outcome.next.inj (hc.symm.trans hu)⟩
  rcases hi with rfl | rfl
  · exact create _ (exec_crenc mode macf s ▸ h)
  · exact create _ (exec_crdec mode macf s ▸ h)

/-- The nibble groups in the material at `SBOX_BASE`. -/
def State.materialGroups (s : State) : Groups :=
  sboxUnpack s.params.nibbleOrder (Memory.readBytes s.mem s.eng.desc.sboxBase.toNat 64)

theorem createAction_eng_k (b : Binding) (s : State) :
    (createAction b s).1.eng.k = keySched (Memory.readBytes s.mem s.eng.desc.keyBase.toNat 32) := bindTo_k ..

theorem createAction_eng_t (b : Binding) (s : State) :
    (createAction b s).1.eng.t = sboxBuild s.params.pairing s.materialGroups := bindTo_t ..

theorem toNat_materialGroups (s : State) (g e : Nat) (hg : g < 8) (he : e < 16) :
    s.materialGroups[g][e].toNat = s.materialEntry g e := by
  rw [State.materialGroups, getElem_sboxUnpack, getElem_readBytes, State.materialEntry, Nat.add_assoc]
  cases s.params.nibbleOrder with
  | lowFirst => exact toNat_entryOf_lowFirst ..
  | highFirst => exact toNat_entryOf_highFirst ..

/-! ### The obligations -/

/-- Settles O23: cutting the words into bytes undoes the key schedule on either side. -/
theorem keyScheduleIsBijection : Obligations.KeyScheduleIsBijection :=
  ⟨Function.bijective_iff_has_inverse.mpr ⟨keyBytes, keyBytes_keySched, keySched_keyBytes⟩,
    keySched_replicate 0#8, keySched_replicate 0xFF#8⟩

/-- Settles O24: a table is the product of its two groups, on the pair of nibbles that a byte is. -/
theorem tableBijectiveIffGroupsAre : Obligations.TableBijectiveIffGroupsAre := by
  intro pairing groups i
  rw [lookup_sboxBuild_eq_comp, Equiv.comp_bijective, Equiv.bijective_comp, Prod.map_bijective]
  rfl

/-- Settles O25, by which nibble of its byte nibble `j` is. -/
theorem roundFunctionIsNibblewise : Obligations.RoundFunctionIsNibblewise := by
  intro pairing groups x ⟨j, hj⟩ ⟨b, hb⟩
  obtain ⟨i, rfl | rfl⟩ := Nat.even_or_odd' j
  · have hbit := getLsbD_roundF (sboxBuild pairing groups) x (j := i) (b := b) (by omega) (by omega)
    rw [lookup_sboxBuild, BitVec.getLsbD_append, if_pos hb, groupEntry_byteOf _ x i (n := 0) (by omega)] at hbit
    simpa [show 4 * (2 * i) = 8 * i by omega] using hbit
  · have hbit := getLsbD_roundF (sboxBuild pairing groups) x (j := i) (b := 4 + b) (by omega) (by omega)
    rw [lookup_sboxBuild, BitVec.getLsbD_append, if_neg (by omega), groupEntry_byteOf _ x i (n := 1) (by omega)] at hbit
    simpa [show 4 * (2 * i + 1) + b = 8 * i + (4 + b) by omega, show (2 * i + 1) / 2 = i by omega] using hbit

/-- Settles O40: the key words are made from the 32 bytes of memory from `KEY_BASE`. -/
theorem createDerivesKeyWords : Obligations.CreateDerivesKeyWords := by
  intro s t mode macf i hi h hok j
  obtain ⟨b, rfl⟩ := exec_create_ok hi h hok
  simp only [finish_eng_k, createAction_eng_k, Fin.getElem_fin, getElem_keySched, toNat_le32, getElem_readBytes]

/-- Settles O41: the tables are made from the groups in the 64 bytes of memory from `SBOX_BASE`. -/
theorem createDerivesTables : Obligations.CreateDerivesTables := by
  intro s t mode macf i hi h hok j b
  obtain ⟨_, rfl⟩ := exec_create_ok hi h hok
  simp only [finish_eng_t, createAction_eng_t, Fin.getElem_fin, getElem_sboxBuild, toNat_append_nibble,
    toNat_materialGroups]

end Sys2Proof.Machine
end

section
/-! PROOFS. The round function and the Feistel core. A round is its own inverse, so a list of rounds is undone by the
reversed list. `STOREBLK` exchanges the halves, and exchanged halves run the rounds of the other parity, so each network
undoes the other. With equal key words only the number of rounds counts. -/

namespace Sys2Proof.Machine

open Sys2Proof

/-! ### Table entries and the bytes of a block (R140, R145) -/

theorem lookup_byteOf (table : Vector Byte 256) (x : Word) (j : Nat) :
    lookup table (byteOf x j) = table[x.toNat / 2 ^ (8 * j) % 256] :=
  getElem_congr_idx (toNat_byteOf x j)

theorem getElem_blockOf_lo (lo hi : Word) (i : Nat) (h : i < 4) : (blockOf lo hi)[i] = byteOf lo i := by
  match i, h with
  | 0, _ | 1, _ | 2, _ | 3, _ => rfl

theorem getElem_blockOf_hi (lo hi : Word) (i : Nat) (h : i < 4) : (blockOf lo hi)[i + 4] = byteOf hi i := by
  match i, h with
  | 0, _ | 1, _ | 2, _ | 3, _ => rfl

/-! ### Rounds undone, exchanged and paired (R143, R147) -/

section rounds

variable (k : KeyWords) (t : Tables)

/-- The half that a round reads is the half that it leaves. -/
theorem roundStep_involutive (r : Nat) (idx : Fin 8) : Function.Involutive (roundStep k t r idx) := by
  intro h
  rcases Nat.mod_two_eq_zero_or_one r with hr | hr
  · simp only [roundStep_even k t hr, BitVec.xor_assoc, BitVec.xor_self, BitVec.xor_zero]
  · simp only [roundStep_odd k t hr, BitVec.xor_assoc, BitVec.xor_self, BitVec.xor_zero]

/-- A list of rounds is undone by the reversed list, started at a round of the parity that the last one had. -/
theorem runRounds_reverse {r r' : Nat} {l : List (Fin 8)} (hr : (r + r' + l.length) % 2 = 1) (h : Halves) :
    runRounds k t r' l.reverse (runRounds k t r l h) = h := by
  induction l generalizing r h with
  | nil => rfl
  | cons x xs ih =>
    rw [List.length_cons] at hr
    simp only [List.reverse_cons, runRounds_append, List.length_reverse, runRounds]
    rw [ih (by omega), roundStep_parity k t (r' := r) (by omega)]
    exact roundStep_involutive k t r x h

/-- Exchanged halves run the rounds of the other parity. -/
theorem runRounds_swap (r : Nat) (l : List (Fin 8)) (h : Halves) :
    runRounds k t (r + 1) l ⟨h.n2, h.n1⟩ = ⟨(runRounds k t r l h).n2, (runRounds k t r l h).n1⟩ := by
  induction l generalizing r h with
  | nil => rfl
  | cons x xs ih =>
    simp only [runRounds, roundStep_swap]
    exact ih (r + 1) _

/-- An even number of rounds from block to block is undone by the reversed list, again from round 0: the exchange of the
halves in `STOREBLK` makes up for the parity. -/
theorem storeBlock_runRounds_reverse {l : List (Fin 8)} (hl : l.length % 2 = 0) (b : Block) :
    storeBlock (runRounds k t 0 l.reverse (loadBlock (storeBlock (runRounds k t 0 l (loadBlock b))))) = b := by
  have hundo : runRounds k t 1 l.reverse (runRounds k t 0 l (loadBlock b)) = loadBlock b := by
    rw [runRounds_reverse k t (by omega)]
  rw [loadBlock_storeBlock, runRounds_parity k t (r := 0) (r' := 1 + 1) rfl, runRounds_swap, hundo,
    storeBlock_swap_loadBlock]

/-- An even round and the odd round after it are a pair of updates. -/
theorem runRounds_pair (i j : Fin 8) (rest : List (Fin 8)) (h : Halves) :
    runRounds k t 0 (i :: j :: rest) h = runRounds k t 0 rest (roundPair k t i j h) := by
  rw [runRounds, runRounds, roundStep_even k t (r := 0) rfl, roundStep_odd k t (r := 0 + 1) rfl,
    runRounds_parity k t (r := 0 + 1 + 1) (r' := 0) rfl, roundPair]

/-- With equal key words the indices do not count, only how many there are. -/
theorem runRounds_congr_length {k : KeyWords} (hk : ∀ i j : Fin 8, k[i] = k[j]) (r : Nat) {l l' : List (Fin 8)}
    (hl : l.length = l'.length) (h : Halves) : runRounds k t r l h = runRounds k t r l' h := by
  induction l generalizing r l' h with
  | nil => rw [List.eq_nil_of_length_eq_zero hl.symm]
  | cons x xs ih =>
    match l', hl with
    | y :: ys, hl =>
      have hstep : roundStep k t r x h = roundStep k t r y h := by simp only [roundStep, hk x y]
      simp only [runRounds, hstep]
      exact ih (r + 1) (Nat.succ.inj hl) _

end rounds

/-! ### The two networks (R142, R146, R148) -/

theorem map_decIdx_eq_reverse : (List.range 32).map decIdx = ((List.range 32).map encIdx).reverse := by decide

theorem map_encIdx_eq_reverse : (List.range 32).map encIdx = ((List.range 32).map decIdx).reverse := by
  rw [map_decIdx_eq_reverse, List.reverse_reverse]

theorem fdec_fenc (k : KeyWords) (t : Tables) (b : Block) : fdec k t (fenc k t b) = b := by
  rw [fdec, fdecHalves, map_decIdx_eq_reverse, fenc, fencHalves]
  exact storeBlock_runRounds_reverse k t (by simp) b

theorem fenc_fdec (k : KeyWords) (t : Tables) (b : Block) : fenc k t (fdec k t b) = b := by
  rw [fenc, fencHalves, map_encIdx_eq_reverse, fdec, fdecHalves]
  exact storeBlock_runRounds_reverse k t (by simp) b

theorem fdec_eq_fenc_of_equal_keys {k : KeyWords} (hk : ∀ i j : Fin 8, k[i] = k[j]) (t : Tables) (b : Block) :
    fdec k t b = fenc k t b := by
  have hrounds : ((List.range 32).map decIdx).length = ((List.range 32).map encIdx).length := by
    rw [List.length_map, List.length_map]
  rw [fdec, fdecHalves, fenc, fencHalves, runRounds_congr_length t hk 0 hrounds]

/-! ### The obligations -/

/-- Settles O26: a bit of `F` is a bit of the entry for the byte that the rotation took it from. -/
theorem roundFunctionBits : Obligations.RoundFunctionBits := by
  intro t x j b
  rw [getLsbD_roundF t x j.isLt b.isLt, lookup_byteOf]
  rfl

/-- Settles O27, by evaluating the two sequences on the 32 rounds. -/
theorem keyIndexSequences : Obligations.KeyIndexSequences := by
  unfold Obligations.KeyIndexSequences
  decide

/-- Settles O28, by the parity of the round. -/
theorem roundUpdatesOneHalf : Obligations.RoundUpdatesOneHalf := by
  intro k t r idx h
  refine ⟨fun hr => ?_, fun hr => ?_, roundStep_involutive k t r idx h⟩
  · rw [roundStep_even k t hr, BitVec.add_def]
  · rw [roundStep_odd k t (by omega), BitVec.add_def]

/-- Settles O29: a word's value from its bytes, and a byte's value from its word. -/
theorem blockAssembly : Obligations.BlockAssembly := by
  refine ⟨fun b => ⟨toNat_le32 .., toNat_le32 ..⟩, fun h i => ⟨?_, ?_⟩⟩
  · rw [storeBlock, getElem_blockOf_lo _ _ _ i.isLt]
    exact toNat_byteOf ..
  · rw [storeBlock, getElem_blockOf_hi _ _ _ i.isLt]
    exact toNat_byteOf ..

/-- Settles O30: the 32 rounds of `ENCIDX` are taken two at a time. -/
theorem fencWrittenOut : Obligations.FencWrittenOut := by
  intro k t b
  rw [fenc, fencHalves, keyIndexSequences.1]
  simp only [runRounds_pair, ascendingPass, descendingPass]
  rw [runRounds]

/-- Settles O31: each index sequence is the other reversed. -/
theorem fdecInvertsFenc : Obligations.FdecInvertsFenc := fun k t b => ⟨fdec_fenc k t b, fenc_fdec k t b⟩

/-- Settles O32: with equal key words the two networks are one, and it undoes itself. -/
theorem equalKeyWordsMakeFencInvolution : Obligations.EqualKeyWordsMakeFencInvolution := by
  intro k t hk b
  refine ⟨fdec_eq_fenc_of_equal_keys hk t b, ?_⟩
  rw [← fdec_eq_fenc_of_equal_keys hk t (fenc k t b), fdec_fenc]

/-- Settles O35: `ECB` undoes the network, `OFB` and `CFB` the exclusive or with a block that both engines make alike. -/
theorem blockStepRoundTrip : Obligations.BlockStepRoundTrip := by
  intro m macf macf' e e' x hk ht hfb
  cases m with
  | ecb => simp only [blockStep_ecb_encrypt, blockStep_ecb_decrypt, hk, ht, hfb, fdec_fenc, and_self]
  | ofb => simp only [blockStep_ofb, hk, ht, hfb, xorBlock_cancel, and_self]
  | cfb => simp only [blockStep_cfb_encrypt, blockStep_cfb_decrypt, hk, ht, hfb, xorBlock_cancel, and_self]

end Sys2Proof.Machine
end

section
/-! PROOFS. The mode engine. A block step is the row of the state machine's table, so in OFB the register after a transform
is its start value advanced once a block. An advance adds an odd constant to the low word, so advances fewer than `2^32`
apart leave different registers, and `FENC` keeps them apart. A construction on legal material seeds `FB` with `FENC` of the
IV and writes the cipher state alone. -/

namespace Sys2Proof.Machine

open Sys2Proof

/-! ### The register advance (R163, R164, R166) -/

section advanceWords

variable (hi : Word)

theorem toNat_advanceHi_of_no_carry (h : hi.toNat + 0x01010104 ≤ 0xFFFFFFFF) :
    (advanceHi hi).toNat = hi.toNat + 0x01010104 := by
  rw [toNat_advanceHi, Nat.mod_eq_of_lt (by omega)]
  omega

/-- The carry of the sum is added back in. -/
theorem toNat_advanceHi_of_carry (h : 2 ^ 32 ≤ hi.toNat + 0x01010104) :
    (advanceHi hi).toNat = hi.toNat + 0x01010104 - 2 ^ 32 + 1 := by
  have hlt := hi.isLt
  rw [toNat_advanceHi, Nat.mod_eq_sub_mod (by omega), Nat.mod_eq_of_lt (by omega)]
  omega

theorem toNat_advanceHi_bounds : 1 ≤ (advanceHi hi).toNat ∧ (advanceHi hi).toNat ≤ 0xFFFFFFFF := by
  have hlt := Nat.mod_lt (hi.toNat + 0x01010104 - 1) (show 0 < 0xFFFFFFFF by omega)
  rw [toNat_advanceHi]
  omega

end advanceWords

theorem toNat_loWord_advance_iterate (n : Nat) (fb : Block) :
    (loWord (advance^[n] fb)).toNat = ((loWord fb).toNat + n * 0x01010101) % 2 ^ 32 := by
  induction n with
  | zero => exact (Nat.mod_eq_of_lt (loWord fb).isLt).symm
  | succ n ih =>
    rw [Function.iterate_succ_apply', loWord_advance, toNat_advanceLo, ih]
    omega

/-- Advances fewer than `2^32` apart leave different registers: `2^32` has no factor in common with the odd constant that the
low word advances by. -/
theorem advance_iterate_ne (fb : Block) {p q : Nat} (hpq : p < q) (hq : q < p + 2 ^ 32) :
    advance^[p] fb ≠ advance^[q] fb := by
  intro heq
  have hlo : (loWord fb).toNat + p * 0x01010101 ≡ (loWord fb).toNat + q * 0x01010101 [MOD 2 ^ 32] := by
    rw [Nat.ModEq, ← toNat_loWord_advance_iterate, ← toNat_loWord_advance_iterate, heq]
  have hmod : p ≡ q [MOD 2 ^ 32] :=
    Nat.ModEq.cancel_right_of_coprime (c := 0x01010101) (by norm_num) (Nat.ModEq.add_left_cancel' _ hlo)
  have hdvd : 2 ^ 32 ∣ q - p := (Nat.modEq_iff_dvd' hpq.le).mp hmod
  have hle := Nat.le_of_dvd (by omega) hdvd
  omega

theorem fenc_injective (k : KeyWords) (t : Tables) : Function.Injective (fenc k t) :=
  Function.LeftInverse.injective (fdec_fenc k t)

/-! ### A block step and the block loop (R161, R170) -/

/-- A block step gives the output and the next `FB` of its row of the table. -/
theorem blockStep_eq_modeStep (b : Binding) (x : Block) (e : Engine) :
    (e.blockStep b x).2 = (modeStep b e.k e.t x e.fb).1 ∧
      (e.blockStep b x).1.fb = (modeStep b e.k e.t x e.fb).2 := by
  obtain ⟨dir, mode, macf⟩ := b
  cases mode with
  | ecb => cases dir <;> simp only [blockStep_ecb_encrypt, blockStep_ecb_decrypt, modeStep, and_self]
  | ofb => simp only [blockStep_ofb, modeStep, and_self]
  | cfb => cases dir <;> simp only [blockStep_cfb_encrypt, blockStep_cfb_decrypt, modeStep, and_self]

/-- In OFB every block advances the register once, whatever the block is. -/
theorem blockLoop_ofb_fb {b : Binding} (hb : b.mode = .ofb) (n ia oa : Nat) (e : Engine) (m : Memory) :
    (blockLoop b n ia oa e m).1.fb = advance^[n] e.fb := by
  induction n generalizing ia oa e m with
  | zero => rfl
  | succ n ih =>
    have hfb : (blockOnce b ia oa e m).1.fb = advance e.fb := by
      obtain ⟨dir, mode, macf⟩ := b
      obtain rfl : mode = .ofb := hb
      simp only [blockOnce, blockStep_ofb]
    rw [blockLoop, ih, hfb, Function.iterate_succ_apply]

/-! ### A construction on legal material (R160, R181, R186) -/

theorem modeOfField_modeCode (m : Mode) : modeOfField (modeCode m) = some m := by cases m <;> rfl

theorem createTransform_ok (dir : Direction) (m : Mode) (macf : Bool) {s : State}
    (hlen : s.eng.desc.materialLengthsLegal) (hex : s.eng.desc.materialExists s.params.memSize) :
    createTransform dir (modeCode m) macf s = .next ((createAction ⟨dir, m, macf⟩ s).1.finish .ok 0) := by
  rw [createTransform, modeOfField_modeCode]
  simp only [commandFrame, (createChecks_eq _ _).2.2 hlen hex, createAction_count]

/-- What a construction changes: the binding and the cipher state. -/
theorem createAction_frame (b : Binding) (s : State) :
    (createAction b s).1
      = { s with
          eng := { s.eng with
            binding := some b
            k := (createAction b s).1.eng.k
            t := (createAction b s).1.eng.t
            fb := (createAction b s).1.eng.fb
            n1 := (createAction b s).1.eng.n1
            n2 := (createAction b s).1.eng.n2 } } := (rfl)

theorem createAction_eng_fb (b : Binding) (s : State) :
    (createAction b s).1.eng.fb
      = fenc (createAction b s).1.eng.k (createAction b s).1.eng.t
          (Memory.readBytes s.mem s.eng.desc.ivBase.toNat 8) := by
  rw [createAction_eng_k, createAction_eng_t]
  exact bindTo_fb ..

/-! ### The obligations -/

/-- Settles O33: the high word without and with a carry. -/
theorem ofbAdvance : Obligations.OfbAdvance := by
  refine ⟨fun e => rfl, fun e => ?_⟩
  simp only [ofbAdv_fb, loWord_advance, hiWord_advance]
  exact ⟨toNat_advanceLo _, toNat_advanceHi _, toNat_advanceHi_of_no_carry _, toNat_advanceHi_of_carry _,
    toNat_advanceHi_bounds _⟩

/-- Settles O36: a transform that ends with `OK` is a loop of `IN_CNT / 8` blocks. -/
theorem ofbRegisterIgnoresData : Obligations.OfbRegisterIgnoresData := by
  intro i s t b hi hb hm h hok
  obtain ⟨b', hb', rfl, h0, -⟩ := exec_transform_ok hi h hok
  obtain rfl : b = b' := Option.some.inj (hb.symm.trans hb')
  rw [← (count_toNat h0).1]
  exact blockLoop_ofb_fb hm _ _ _ s.eng s.mem

/-- Settles O37: the registers at the two positions differ, and `FENC` is injective. -/
theorem ofbKeystreamBlocksDiffer : Obligations.OfbKeystreamBlocksDiffer := fun k t fb _ _ hpq hq =>
  (fenc_injective k t).ne (advance_iterate_ne fb hpq hq)

/-- Settles O39: every check passes, and the IV is the 8 bytes of memory from `IV_BASE`. -/
theorem createBindsTransform : Obligations.CreateBindsTransform := by
  intro s dir m macf hlen hex
  refine ⟨(createAction ⟨dir, m, macf⟩ s).1.finish .ok 0, ?_,
    congrArg (State.finish .ok 0) (createAction_frame ⟨dir, m, macf⟩ s),
    Memory.readBytes s.mem s.eng.desc.ivBase.toNat 8, fun j => getElem_readBytes _ _ _ _ j.isLt,
    createAction_eng_fb ⟨dir, m, macf⟩ s⟩
  cases dir with
  | encrypt => rw [exec_crenc, createTransform_ok _ m macf hlen hex]
  | decrypt => rw [exec_crdec, createTransform_ok _ m macf hlen hex]

/-- Settles O34: the row gives the output and the next `FB`, and the frame of a block step the rest. -/
theorem modeStateMachine : Obligations.ModeStateMachine := by
  intro b x e
  obtain ⟨hout, hfb⟩ := blockStep_eq_modeStep b x e
  refine ⟨hout, ?_⟩
  rw [← hfb]
  exact blockStep_frame b x e

end Sys2Proof.Machine
end

section
/-! PROOFS. How each command ends. For every command one lemma lists its ends, each with the condition of the rules under
which it is taken; the statements about codes, and those that compare two commands or one command on two states, are read
off these lists. -/

namespace Sys2Proof.Machine

open Sys2Proof

/-! ### The ends of `CRENC` and `CRDEC` (R183, R184, R186) -/

theorem eq_modeCode_of_modeOfField {mode : BitVec 2} {m : Mode} (h : modeOfField mode = some m) :
    mode = modeCode m := by
  revert mode m; decide

/-- The ends of a construction: which one is taken does not depend on the direction. -/
theorem createTransform_ends (mode : BitVec 2) (macf : Bool) (s : State) :
    ((mode = 3#2 ∨ ¬ s.eng.desc.materialLengthsLegal) ∧
      ∀ dir, createTransform dir mode macf s = .next (s.finish .errCfg 0)) ∨
    (mode ≠ 3#2 ∧ s.eng.desc.materialLengthsLegal ∧ ¬ s.eng.desc.materialExists s.params.memSize ∧
      ∀ dir, createTransform dir mode macf s = .next (s.finish .errBus 0)) ∨
    (∃ m, mode = modeCode m ∧ s.eng.desc.materialLengthsLegal ∧ s.eng.desc.materialExists s.params.memSize ∧
      ∀ dir, createTransform dir mode macf s = .next ((createAction ⟨dir, m, macf⟩ s).1.finish .ok 0)) := by
  obtain ⟨hcfg, hbus, -⟩ := createChecks_eq s.params.memSize s.eng.desc
  cases hmode : modeOfField mode with
  | none => exact .inl ⟨.inl (modeOfField_eq_none.mp hmode), fun dir => by rw [createTransform, hmode, raise]⟩
  | some m =>
    have hne : mode ≠ 3#2 := fun h => by simp [modeOfField_eq_none.mpr h] at hmode
    obtain rfl := eq_modeCode_of_modeOfField hmode
    by_cases hlen : s.eng.desc.materialLengthsLegal
    · by_cases hex : s.eng.desc.materialExists s.params.memSize
      · exact .inr (.inr ⟨m, rfl, hlen, hex, fun dir => createTransform_ok dir m macf hlen hex⟩)
      · refine .inr (.inl ⟨hne, hlen, hex, fun dir => ?_⟩)
        simp only [createTransform, hmode, commandFrame, hbus hlen hex, raise]
    · refine .inl ⟨.inr hlen, fun dir => ?_⟩
      simp only [createTransform, hmode, commandFrame, hcfg hlen, raise]

/-- `CRENC` and `CRDEC` are constructions in one direction or the other. -/
theorem exec_create {i : Instr} {mode : BitVec 2} {macf : Bool} (hi : i = .crenc mode macf ∨ i = .crdec mode macf) :
    ∃ dir, ∀ s, exec i s = createTransform dir mode macf s := by
  rcases hi with rfl | rfl
  · exact ⟨.encrypt, exec_crenc mode macf⟩
  · exact ⟨.decrypt, exec_crdec mode macf⟩

/-- The direction goes into the binding and nowhere else. -/
theorem createAction_decrypt (m : Mode) (macf : Bool) (s : State) :
    (createAction ⟨.decrypt, m, macf⟩ s).1
      = { (createAction ⟨.encrypt, m, macf⟩ s).1 with
          eng := { (createAction ⟨.encrypt, m, macf⟩ s).1.eng with binding := some ⟨.decrypt, m, macf⟩ } } := (rfl)

/-- Of the engine a construction reads the descriptors alone, and it writes all the rest that its end does not write. -/
theorem createAction_forgets (b : Binding) (s : State) (old : Engine) (c : StatusCode) (r : Word) :
    (createAction b { s with eng := { old with desc := s.eng.desc } }).1.finish c r
      = (createAction b s).1.finish c r := (rfl)

/-! ### The ends of `XBLK` and `XFIN` (R187 to R195, R198) -/

/-- While unbound both transform commands end with `ERR_STATE`. -/
theorem exec_transform_unbound {i : Instr} (hi : i.isTransform) {s : State} (hb : s.eng.binding = none) :
    exec i s = .next (s.finish .errState 0) := by
  rcases hi with rfl | rfl
  · rw [exec_xblk, execXblk, hb, raise]
  · rw [exec_xfin, execXfin, hb, raise]

section bound

variable {s : State} {b : Binding} (hb : s.eng.binding = some b)
include hb

/-- The ends of `XBLK` on a bound engine. -/
theorem execXblk_ends :
    (¬ s.eng.desc.xblkArgsLegal ∧ execXblk s = .next (s.finish .errArg 0)) ∨
    (s.eng.desc.xblkArgsLegal ∧ ¬ s.eng.desc.rangesExist s.params.memSize ∧
      execXblk s = .next (s.finish .errBus 0)) ∨
    (s.eng.desc.xblkArgsLegal ∧ s.eng.desc.rangesExist s.params.memSize ∧
      execXblk s = .next ((transformAction b s).1.finish .ok s.eng.desc.inCnt)) := by
  by_cases ha : s.eng.desc.xblkArgsLegal
  · by_cases hr : s.eng.desc.rangesExist s.params.memSize
    · exact .inr (.inr ⟨ha, hr, execXblk_ok hb ha hr⟩)
    · exact .inr (.inl ⟨ha, hr, execXblk_errBus hb ha hr⟩)
  · exact .inl ⟨ha, execXblk_errArg hb ha⟩

/-- The ends of `XFIN` on a bound engine. -/
theorem execXfin_ends :
    (¬ s.eng.desc.xfinArgsLegal b ∧ execXfin s = .next (s.finish .errArg 0)) ∨
    (s.eng.desc.xfinArgsLegal b ∧ 0 < s.eng.desc.inCnt.toInt ∧ ¬ s.eng.desc.rangesExist s.params.memSize ∧
      execXfin s = .next (s.finish .errBus 0)) ∨
    (s.eng.desc.xfinArgsLegal b ∧ (0 < s.eng.desc.inCnt.toInt → s.eng.desc.rangesExist s.params.memSize) ∧
      execXfin s = .next ((transformAction b s).1.finish .ok s.eng.desc.inCnt)) := by
  by_cases ha : s.eng.desc.xfinArgsLegal b
  · by_cases hr : 0 < s.eng.desc.inCnt.toInt → s.eng.desc.rangesExist s.params.memSize
    · exact .inr (.inr ⟨ha, hr, execXfin_ok hb ha hr⟩)
    · obtain ⟨hpos, hr'⟩ := Classical.not_imp.mp hr
      exact .inr (.inl ⟨ha, hpos, hr', execXfin_errBus hb ha hr⟩)
  · exact .inl ⟨ha, execXfin_errArg hb ha⟩

end bound

/-- With a count above 0 the arguments that `XFIN` accepts are those that `XBLK` accepts. -/
theorem xfinArgsLegal_iff_xblk {d : Descriptors} (hpos : 0 < d.inCnt.toInt) (b : Binding) :
    d.xfinArgsLegal b ↔ d.xblkArgsLegal := by
  have hne : d.inCnt.toInt ≠ 0 := by omega
  simp only [Descriptors.xfinArgsLegal, Descriptors.xblkArgsLegal, hpos, hne, hpos.le, forall_const, false_imp_iff,
    true_and]
  tauto

/-- With a count above 0 `XFIN` is `XBLK`: the same ends under the same conditions. -/
theorem execXfin_eq_execXblk {s : State} (hpos : 0 < s.eng.desc.inCnt.toInt) : execXfin s = execXblk s := by
  cases hb : s.eng.binding with
  | none => exact (exec_transform_unbound (.inr rfl) hb).trans (exec_transform_unbound (.inl rfl) hb).symm
  | some b =>
    have hargs := xfinArgsLegal_iff_xblk hpos b
    rcases execXblk_ends hb with ⟨ha, hx⟩ | ⟨ha, hr, hx⟩ | ⟨ha, hr, hx⟩ <;> rw [hx]
    · exact execXfin_errArg hb (hargs.not.mpr ha)
    · exact execXfin_errBus hb (hargs.mpr ha) fun h => hr (h hpos)
    · exact execXfin_ok hb (hargs.mpr ha) fun _ => hr

/-- Of no bytes `XFIN` accepts an input offset inside the buffer, in ECB or with the MAC flag. -/
theorem xfinArgsLegal_iff_of_zero {d : Descriptors} (hcnt : d.inCnt = 0) (h0 : 0 ≤ d.inOff.toInt)
    (hsize : d.inOff.toInt ≤ d.inSize.toNat) (b : Binding) : d.xfinArgsLegal b ↔ b.mode = .ecb ∨ b.macf = true := by
  have hzero : d.inCnt.toInt = 0 := by rw [hcnt]; rfl
  simp [Descriptors.xfinArgsLegal, hzero, h0, hsize]

/-- A transform of no bytes runs no block. -/
theorem transformAction_of_zero (b : Binding) {s : State} (hcnt : s.eng.desc.inCnt = 0) :
    (transformAction b s).1 = s := by
  have hcount : s.eng.desc.count.toNat / 8 = 0 := by rw [Descriptors.count, hcnt]; rfl
  simp only [transformAction, hcount, blockLoop]

/-! ### The obligations -/

/-- Settles O19, by the ends of a construction. -/
theorem createStatus : Obligations.CreateStatus := by
  intro mode macf s i hi
  obtain ⟨dir, hexec⟩ := exec_create hi
  rw [hexec]
  rcases createTransform_ends mode macf s with ⟨hbad, hu⟩ | ⟨hm, hlen, hex, hu⟩ | ⟨m, rfl, hlen, hex, hu⟩
  · exact ⟨_, hu dir, fun _ => rfl, fun hm hlen => (hbad.elim hm (· hlen)).elim,
      fun hm hlen => (hbad.elim hm (· hlen)).elim⟩
  · exact ⟨_, hu dir, fun hbad => (hbad.elim hm (· hlen)).elim, fun _ _ _ => rfl, fun _ _ h => (hex h).elim⟩
  · exact ⟨_, hu dir, fun hbad => (hbad.elim (modeCode_ne_three m) (· hlen)).elim, fun _ _ h => (h hex).elim,
      fun _ _ _ => rfl⟩

/-- Settles O20, by the ends of `XBLK`. -/
theorem xblkStatus : Obligations.XblkStatus := by
  intro s
  cases hb : s.eng.binding with
  | none => exact ⟨_, exec_transform_unbound (.inl rfl) hb, by simp⟩
  | some b =>
    rcases execXblk_ends hb with ⟨ha, hx⟩ | ⟨ha, hr, hx⟩ | ⟨ha, hr, hx⟩
    · exact ⟨_, hx, nofun, fun _ _ => rfl, fun _ h => (ha h).elim, fun _ h => (ha h).elim⟩
    · exact ⟨_, hx, nofun, fun _ h => (h ha).elim, fun _ _ _ => rfl, fun _ _ h => (hr h).elim⟩
    · exact ⟨_, hx, nofun, fun _ h => (h ha).elim, fun _ _ h => (h hr).elim, fun _ _ _ => rfl⟩

/-- Settles O21, by the ends of `XFIN`. -/
theorem xfinStatus : Obligations.XfinStatus := by
  intro s
  cases hb : s.eng.binding with
  | none => exact ⟨_, exec_transform_unbound (.inr rfl) hb, by simp⟩
  | some b =>
    rcases execXfin_ends hb with ⟨ha, hx⟩ | ⟨ha, hpos, hr, hx⟩ | ⟨ha, hr, hx⟩ <;>
      refine ⟨_, hx, nofun, fun b' hb' => ?_⟩ <;> obtain rfl := Option.some.inj hb'
    · exact ⟨fun _ => rfl, fun h => (ha h).elim, fun h => (ha h).elim⟩
    · exact ⟨fun h => (h ha).elim, fun _ _ _ => rfl, fun _ h => (hr (h hpos)).elim⟩
    · exact ⟨fun h => (h ha).elim, fun _ hpos h => (h (hr hpos)).elim, fun _ _ => rfl⟩

/-- Settles O42, by the ends of a construction, which both take under the same conditions. -/
theorem crdecDiffersInDirectionOnly : Obligations.CrdecDiffersInDirectionOnly := by
  intro mode macf s t h
  rw [exec_crenc] at h
  rw [exec_crdec]
  rcases createTransform_ends mode macf s with ⟨_, hu⟩ | ⟨_, _, _, hu⟩ | ⟨m, _, _, _, hu⟩ <;>
    rw [hu] at h ⊢ <;> obtain rfl := Host.Outcome.next.inj h
  · rfl
  · rfl
  · rw [if_pos (finish_eng_status ..), createAction_decrypt]
    rfl

/-- Settles O43, by the ends of a construction: the conditions of the one with `OK` are about the descriptors alone. -/
theorem createForgetsOldTransform : Obligations.CreateForgetsOldTransform := by
  intro mode macf i s t old hi h hok
  obtain ⟨dir, hexec⟩ := exec_create hi
  rw [hexec] at h ⊢
  rcases createTransform_ends mode macf s with ⟨_, hu⟩ | ⟨_, _, _, hu⟩ | ⟨m, rfl, hlen, hex, hu⟩ <;>
    rw [hu] at h <;> obtain rfl := Host.Outcome.next.inj h
  · cases hok
  · cases hok
  · rw [createTransform_ok (s := { s with eng := { old with desc := s.eng.desc } }) dir m macf hlen hex,
      createAction_forgets]

/-- Settles O48: the two have the same ends under the same conditions. -/
theorem xfinWithDataIsXblk : Obligations.XfinWithDataIsXblk := fun _ => execXfin_eq_execXblk

/-- Settles O49: of no bytes nothing but the mode and the MAC flag is left to check, and no block is run. -/
theorem xfinOfZeroLength : Obligations.XfinOfZeroLength := by
  intro s b hb hcnt h0 hsize
  have hargs := xfinArgsLegal_iff_of_zero hcnt h0 hsize b
  have hok (h : b.mode = .ecb ∨ b.macf = true) : exec .xfin s = .next (s.finish .ok 0) := by
    rw [exec_xfin, execXfin_ok hb (hargs.mpr h) (fun hpos => by simp [hcnt] at hpos), transformAction_of_zero b hcnt,
      hcnt]
  have hbad (h : ¬ (b.mode = .ecb ∨ b.macf = true)) : exec .xfin s = .next (s.finish .errArg 0) :=
    execXfin_errArg hb (hargs.not.mpr h)
  obtain ⟨dir, mode, macf⟩ := b
  cases mode with
  | ecb => exact hok (.inl rfl)
  | ofb | cfb =>
    cases macf with
    | true => exact hok (.inr rfl)
    | false => exact hbad (by simp)

/-- Settles O22: the unbound end of the transform commands, and the ends of the other three. -/
theorem unboundTransformFails : Obligations.UnboundTransformFails := by
  refine ⟨fun s i hi hb => exec_transform_unbound hi hb, fun s i hi => ?_⟩
  have create (dir : Direction) (mode : BitVec 2) (macf : Bool) :
      ∃ t, createTransform dir mode macf s = .next t ∧ t.eng.status ≠ .errState := by
    rcases createTransform_ends mode macf s with ⟨_, hu⟩ | ⟨_, _, _, hu⟩ | ⟨m, _, _, _, hu⟩ <;>
      exact ⟨_, hu dir, by simp⟩
  cases i with
  | crenc mode macf => exact create .encrypt mode macf
  | crdec mode macf => exact create .decrypt mode macf
  | xblk => exact absurd (.inl rfl) hi
  | xfin => exact absurd (.inr rfl) hi
  | disp => exact ⟨_, rfl, by simp⟩

/-- Settles O50: `DISP` has one end, and what is disposed of is disposed of already. -/
theorem dispClearsTransform : Obligations.DispClearsTransform := fun _ => ⟨_, rfl, rfl, rfl⟩

end Sys2Proof.Machine
end

section
/-! PROOFS. What a transform command changes. The frame of the block loop gives the registers, the loop's output range the
bytes of memory; and the loop taken one block at a time at its end gives the chain of registers and memories. -/

namespace Sys2Proof.Machine

open Sys2Proof

/-! ### The block loop, one block more (R188) -/

/-- A loop of one block more is the loop and then its last block. -/
theorem blockLoop_succ (b : Binding) (n ia oa : Nat) (e : Engine) (m : Memory) :
    blockLoop b (n + 1) ia oa e m
      = blockOnce b (ia + 8 * n) (oa + 8 * n) (blockLoop b n ia oa e m).1 (blockLoop b n ia oa e m).2 := by
  rw [blockLoop_add]
  simp only [blockLoop]

/-- The block loop leaves `K` and `T` as they are. -/
theorem blockLoop_keys (b : Binding) (n ia oa : Nat) (e : Engine) (m : Memory) :
    (blockLoop b n ia oa e m).1.k = e.k ∧ (blockLoop b n ia oa e m).1.t = e.t := by
  rw [blockLoop_frame]
  exact ⟨rfl, rfl⟩

/-- The register after one block is that of the block's row of the table. -/
theorem blockOnce_fb (b : Binding) (ia oa : Nat) (e : Engine) (m : Memory) :
    (blockOnce b ia oa e m).1.fb = (modeStep b e.k e.t (Memory.readBytes m ia 8) e.fb).2 :=
  (blockStep_eq_modeStep b _ e).2

/-- The bytes that one block writes are the output of its row of the table. -/
theorem blockOnce_output (b : Binding) (ia oa : Nat) (e : Engine) {m : Memory} (hm : Memory.wf m = true) (j : Fin 8) :
    Memory.read (blockOnce b ia oa e m).2 (oa + j.val)
      = ((modeStep b e.k e.t (Memory.readBytes m ia 8) e.fb).1)[j] := by
  rw [← (blockStep_eq_modeStep b _ e).1, ← getElem_readBytes _ _ 8 _ j.isLt]
  simp only [blockOnce, readBytes_writeBytes_same hm, Fin.getElem_fin]

/-- One block writes its eight bytes and no others. -/
theorem blockOnce_outside (b : Binding) (ia oa : Nat) (e : Engine) {m : Memory} (hm : Memory.wf m = true) {a : Nat}
    (ha : a < oa ∨ oa + 8 ≤ a) : Memory.read (blockOnce b ia oa e m).2 a = Memory.read m a :=
  read_writeBytes_outside hm _ _ (by rwa [Vector.length_toList])

/-! ### The action of a transform command (R191) -/

/-- In ECB, and of no bytes, a transform leaves `FB` alone. -/
theorem transformAction_fb {b : Binding} {s : State} (h : b.mode = .ecb ∨ s.eng.desc.inCnt = 0) :
    (transformAction b s).1.eng.fb = s.eng.fb := by
  rcases h with hmode | hcnt
  · obtain ⟨dir, mode, macf⟩ := b
    obtain rfl : mode = .ecb := hmode
    exact blockLoop_ecb_fb ..
  · rw [transformAction_of_zero b hcnt]

/-- What a transform command that ends with `OK` changes. -/
theorem transformAction_finish_frame (b : Binding) (s : State) (r : Word) :
    let t := (transformAction b s).1.finish .ok r
    t = { s with
      mem := t.mem
      eng := { s.eng with status := .ok, result := r, fb := t.eng.fb, n1 := t.eng.n1, n2 := t.eng.n2 } } :=
  congrArg (State.finish .ok r) (transformAction_frame b s)

/-- The engine and the memory that the first `n` blocks of a transform command leave. -/
def State.afterBlocks (b : Binding) (n : Nat) (s : State) : Engine × Memory :=
  blockLoop b n s.eng.desc.inStart.toNat s.eng.desc.outStart.toNat s.eng s.mem

/-- The first blocks, one block more. -/
theorem afterBlocks_succ (b : Binding) (n : Nat) (s : State) :
    s.afterBlocks b (n + 1)
      = blockOnce b (s.eng.desc.inStart.toNat + 8 * n) (s.eng.desc.outStart.toNat + 8 * n)
          (s.afterBlocks b n).1 (s.afterBlocks b n).2 := blockLoop_succ ..

/-- The state has the cipher state and the data memory that a block loop left. -/
def State.Holds (r : Engine × Memory) (s : State) : Prop := r.1.SameCipher s.eng ∧ s.mem = r.2

/-- A transform command that ends with `OK` leaves what its `IN_CNT / 8` blocks leave. -/
theorem exec_transform_holds {i : Instr} (hi : i.isTransform) {s t : State} {b : Binding} (hb : s.eng.binding = some b)
    (h : exec i s = .next t) (hok : t.eng.status = .ok) : t.Holds (s.afterBlocks b (s.eng.desc.inCnt.toNat / 8)) := by
  obtain ⟨b', hb', rfl, h0, -⟩ := exec_transform_ok hi h hok
  obtain rfl : b = b' := Option.some.inj (hb.symm.trans hb')
  simp only [State.Holds, Engine.SameCipher, transformAction, State.afterBlocks, (count_toNat h0).1, finish_eng_k,
    finish_eng_t, finish_eng_fb, finish_mem, and_self]

/-! ### The obligations -/

/-- Settles O44: the end with `OK`, with the frame of its loop. -/
theorem xblkCompletes : Obligations.XblkCompletes := by
  intro s b hb hm ha hr
  have ⟨hpos, h8, _, hoff, _, _⟩ := ha
  exact ⟨_, execXblk_ok hb ha hr, transformAction_finish_frame b s _, fun hmode => transformAction_fb (.inl hmode),
    fun a h => transformAction_outside b hm hpos.le h8 (fun _ => hoff) h⟩

/-- Settles O45: the end with `OK`, with the frame of its loop, which of no bytes is empty. -/
theorem xfinCompletes : Obligations.XfinCompletes := by
  intro s b hb hm ha hr
  have ⟨h0, _, _, h8, _, hout⟩ := ha
  exact ⟨_, execXfin_ok hb ha hr, transformAction_finish_frame b s _, transformAction_fb,
    fun hcnt => by rw [finish_mem, transformAction_of_zero b hcnt],
    fun a h => transformAction_outside b hm h0 h8 (fun hpos => (hout hpos).1) h⟩

/-- Settles O46: an error writes `STATUS` and `RESULT`, and the end with `OK` has the frame of its loop. -/
theorem transformFrame : Obligations.TransformFrame := by
  intro i s t hi hm h
  rcases exec_transform_cases hi s with ⟨code, hu⟩ | ⟨u, hu, hok⟩
  · obtain rfl := Host.Outcome.next.inj (hu.symm.trans h)
    exact ⟨rfl, fun _ => ⟨rfl, rfl⟩, fun _ _ => rfl⟩
  · obtain rfl := Host.Outcome.next.inj (hu.symm.trans h)
    obtain ⟨b, _, rfl, h0, h8, hargs⟩ := exec_transform_ok hi h hok
    refine ⟨transformAction_finish_frame b s _, fun hne => absurd hok hne, fun a ha => ?_⟩
    refine transformAction_outside b hm h0 h8 (fun hpos => ?_) ha
    obtain ⟨⟨_, _, _, hoff, _, _⟩, _⟩ := hargs hpos
    exact hoff

/-- Settles O47: link `j` of the chain is what the loop of the first `j` blocks leaves. -/
theorem transformFollowsBlockLoop : Obligations.TransformFollowsBlockLoop := by
  intro i s t b hi hb hm h hok
  obtain ⟨⟨_, _, hfb⟩, hmem⟩ := exec_transform_holds hi hb h hok
  refine ⟨fun j => (s.afterBlocks b j).1.fb, fun j => (s.afterBlocks b j).2, rfl, rfl, hfb.symm, hmem.symm,
    fun j _ => ⟨_, fun n => getElem_readBytes _ _ 8 _ n.isLt, ?_⟩⟩
  have hwf : Memory.wf (s.afterBlocks b j).2 = true := blockLoop_wf b j _ _ s.eng hm
  obtain ⟨hk, ht⟩ : (s.afterBlocks b j).1.k = s.eng.k ∧ (s.afterBlocks b j).1.t = s.eng.t :=
    blockLoop_keys b j _ _ s.eng s.mem
  simp only [afterBlocks_succ]
  rw [← hk, ← ht]
  exact ⟨blockOnce_fb .., blockOnce_output b _ _ _ hwf, fun a => blockOnce_outside b _ _ _ hwf⟩

end Sys2Proof.Machine
end

section
/-! PROOFS. A transform done in pieces. The bases that a piece leaves are those of the blocks after it, as long as bytes are
left, so the pieces are the parts of one block loop; what a loop leaves of the register and the memory depends on the cipher
state that it starts with and not on the descriptors or on how the piece before it ended. -/

namespace Sys2Proof.Machine

open Sys2Proof

/-! ### The block loop and the cipher state (R188) -/

theorem sameCipher_trans {e e' e'' : Engine} (h : e.SameCipher e') (h' : e'.SameCipher e'') : e.SameCipher e'' := by
  obtain ⟨hk, ht, hfb⟩ := h
  obtain ⟨hk', ht', hfb'⟩ := h'
  exact ⟨hk'.trans hk, ht'.trans ht, hfb'.trans hfb⟩

/-- Over one memory the block loop is a function of the cipher state. -/
theorem blockLoop_congr (b : Binding) (n ia oa : Nat) {e e' : Engine} (he : e.SameCipher e') (m : Memory) :
    (blockLoop b n ia oa e m).1.SameCipher (blockLoop b n ia oa e' m).1 ∧
      (blockLoop b n ia oa e' m).2 = (blockLoop b n ia oa e m).2 := by
  induction n generalizing ia oa e e' m with
  | zero => exact ⟨he, rfl⟩
  | succ n ih =>
    obtain ⟨hcipher, hout⟩ := blockStep_sameCipher he b (Memory.readBytes m ia 8)
    simp only [blockLoop, blockOnce, hout]
    exact ih _ _ hcipher _

/-- Blocks run on a state that holds the end of the first `n` blocks, from the addresses where those ended, are the blocks
after them. -/
theorem holds_afterBlocks_add {b : Binding} {n k : Nat} {s v w : State} (hv : v.Holds (s.afterBlocks b n))
    (haddr : 0 < k → v.eng.desc.inStart.toNat = s.eng.desc.inStart.toNat + 8 * n ∧
      v.eng.desc.outStart.toNat = s.eng.desc.outStart.toNat + 8 * n)
    (hw : w.Holds (v.afterBlocks b k)) : w.Holds (s.afterBlocks b (n + k)) := by
  obtain ⟨hcipher, hmem⟩ := hv
  obtain ⟨hcipher', hmem'⟩ := hw
  rcases Nat.eq_zero_or_pos k with rfl | hk
  · exact ⟨sameCipher_trans hcipher hcipher', hmem'.trans hmem⟩
  · obtain ⟨hia, hoa⟩ := haddr hk
    unfold State.afterBlocks at hcipher' hmem'
    rw [hia, hoa, hmem] at hcipher' hmem'
    obtain ⟨hloop, hloopMem⟩ := blockLoop_congr b k (s.eng.desc.inStart.toNat + 8 * n)
      (s.eng.desc.outStart.toNat + 8 * n) hcipher (s.afterBlocks b n).2
    unfold State.afterBlocks State.Holds
    rw [blockLoop_add]
    exact ⟨sameCipher_trans hloop hcipher', hmem'.trans hloopMem⟩

/-! ### Descriptors with room for the bytes that are left (R189, R190) -/

/-- The descriptors with count `n`, as a piece of `n` bytes runs with. -/
def Descriptors.withCount (n : Nat) (d : Descriptors) : Descriptors := { d with inCnt := BitVec.ofNat 32 n }

/-- The descriptors moved on past `n` bytes. -/
def Descriptors.movedOn (n : Nat) (d : Descriptors) : Descriptors :=
  { d with inBase := d.inBase + BitVec.ofNat 32 n, outBase := d.outBase + BitVec.ofNat 32 n }

/-- Both buffers and the data memory have room for `n` bytes from the start addresses, and `n` is the value of a count. -/
def Descriptors.RoomFor (memSize n : Nat) (d : Descriptors) : Prop :=
  n < 2 ^ 31 ∧ 0 ≤ d.inOff.toInt ∧ 0 ≤ d.outOff.toInt ∧
    d.inOff.toInt + n ≤ d.inSize.toNat ∧ d.outOff.toInt + n ≤ d.outSize.toNat ∧
    d.inBase.toNat + d.inOff.toInt + n ≤ memSize ∧ d.outBase.toNat + d.outOff.toInt + n ≤ memSize

theorem toNat_inCnt_withCount {n : Nat} (hn : n < 2 ^ 31) (d : Descriptors) : (d.withCount n).inCnt.toNat = n :=
  (BitVec.toNat_ofNat n 32).trans (Nat.mod_eq_of_lt (by omega))

theorem toInt_inCnt_withCount {n : Nat} (hn : n < 2 ^ 31) (d : Descriptors) : (d.withCount n).inCnt.toInt = n := by
  rw [BitVec.toInt_eq_toNat_of_lt (by rw [toNat_inCnt_withCount hn]; omega), toNat_inCnt_withCount hn]

/-- A transform that passes its checks has room for its count. -/
theorem roomFor_of_legal {d : Descriptors} {memSize : Nat} (ha : d.xblkArgsLegal) (hr : d.rangesExist memSize) :
    d.RoomFor memSize d.inCnt.toNat := by
  obtain ⟨hpos, _, hin, hout, hinSize, houtSize⟩ := ha
  obtain ⟨hinEnd, houtEnd⟩ := hr
  have hlt := BitVec.toInt_lt (x := d.inCnt)
  rw [← (count_toNat hpos.le).2] at hinSize houtSize hinEnd houtEnd hlt
  exact ⟨by omega, hin, hout, hinSize, houtSize, hinEnd, houtEnd⟩

/-- Whole blocks that there is room for pass the checks of a transform. -/
theorem legal_of_roomFor {d : Descriptors} {memSize n : Nat} (h : d.RoomFor memSize n) (hpos : 0 < n)
    (h8 : n % 8 = 0) : (d.withCount n).xblkArgsLegal ∧ (d.withCount n).rangesExist memSize := by
  obtain ⟨hn, hin, hout, hinSize, houtSize, hinEnd, houtEnd⟩ := h
  unfold Descriptors.xblkArgsLegal Descriptors.rangesExist
  rw [toInt_inCnt_withCount hn]
  exact ⟨⟨by omega, by omega, hin, hout, hinSize, houtSize⟩, hinEnd, houtEnd⟩

theorem roomFor_of_add_left {d : Descriptors} {memSize n k : Nat} (h : d.RoomFor memSize (n + k)) :
    d.RoomFor memSize n := by
  unfold Descriptors.RoomFor at h ⊢
  omega

/-- Moved on past `n` bytes, there is room for the bytes left. -/
theorem roomFor_movedOn {d : Descriptors} {memSize n k : Nat} (h : d.RoomFor memSize (n + k)) :
    ((d.withCount n).movedOn n).RoomFor memSize k := by
  have hle (base : Word) : (base + BitVec.ofNat 32 n).toNat ≤ base.toNat + n := by
    rw [BitVec.toNat_add, BitVec.toNat_ofNat]
    omega
  have hinBase := hle d.inBase
  have houtBase := hle d.outBase
  simp only [Descriptors.RoomFor, Descriptors.movedOn, Descriptors.withCount] at h ⊢
  omega

/-- Moved on past `n` bytes with bytes left, the start addresses are `n` further on: neither base wraps around. -/
theorem start_movedOn {d : Descriptors} {memSize n k : Nat} (h : d.RoomFor memSize (n + k)) (hk : 0 < k)
    (hsize : memSize ≤ 2 ^ 32) :
    ((d.withCount n).movedOn n).inStart.toNat = d.inStart.toNat + n ∧
      ((d.withCount n).movedOn n).outStart.toNat = d.outStart.toNat + n := by
  obtain ⟨_, hin, hout, _, _, hinEnd, houtEnd⟩ := h
  have hadd (base : Word) (hbase : base.toNat + n < 2 ^ 32) :
      (base + BitVec.ofNat 32 n).toNat = base.toNat + n := by
    rw [BitVec.toNat_add, BitVec.toNat_ofNat]
    omega
  simp only [Descriptors.inStart, Descriptors.outStart, Descriptors.movedOn, Descriptors.withCount, uint, sint_eq_toInt,
    hadd d.inBase (by omega), hadd d.outBase (by omega)]
  omega

/-! ### Pieces one after the other (R199 (a)) -/

theorem memSize_le {p : Params} (hp : p.wf = true) : p.memSize ≤ 2 ^ 32 := by
  simp only [Params.wf, Bool.and_eq_true, decide_eq_true_eq] at hp
  obtain ⟨⟨⟨⟨⟨_, hsize⟩, _⟩, _⟩, _⟩, _⟩ := hp
  exact hsize

/-- The state as the host leaves it for the piece after one of `n` bytes. -/
def State.movedOn (n : Nat) (s : State) : State := s.withDesc (s.eng.desc.movedOn n)

/-- A piece that ends with `OK` is followed by the rest, moved on. -/
theorem runPieces_cons {i : Instr} {n : Nat} {s u : State} (h : exec i (s.withDesc (s.eng.desc.withCount n)) = .next u)
    (hok : u.eng.status = .ok) (rest : List (Instr × Nat)) :
    runPieces ((i, n) :: rest) s = runPieces rest (u.movedOn n) := by
  rw [Descriptors.withCount] at h
  simp only [runPieces, h, hok, if_true]
  rfl

/-- On a bound engine with legal arguments and ranges both transform commands run their blocks. -/
theorem exec_transform_of_legal {i : Instr} (hi : i.isTransform) {s : State} {b : Binding}
    (hb : s.eng.binding = some b) (ha : s.eng.desc.xblkArgsLegal) (hr : s.eng.desc.rangesExist s.params.memSize) :
    exec i s = .next ((transformAction b s).1.finish .ok s.eng.desc.inCnt) := by
  rcases hi with rfl | rfl
  · exact execXblk_ok hb ha hr
  · obtain ⟨hpos, _⟩ := id ha
    exact (execXfin_eq_execXblk hpos).trans (execXblk_ok hb ha hr)

/-- A piece of whole blocks that there is room for ends with `OK` and runs the first blocks of what is left. -/
theorem exec_piece {i : Instr} (hi : i.isTransform) {n : Nat} (hpos : 0 < n) (h8 : n % 8 = 0) {s : State} {b : Binding}
    (hb : s.eng.binding = some b) (hroom : s.eng.desc.RoomFor s.params.memSize n) :
    ∃ u, exec i (s.withDesc (s.eng.desc.withCount n)) = .next u ∧ u.eng.status = .ok ∧ u.eng.binding = some b ∧
      u.params = s.params ∧ u.eng.desc = s.eng.desc.withCount n ∧ u.Holds (s.afterBlocks b (n / 8)) := by
  have ⟨hlt, _⟩ := hroom
  obtain ⟨ha, hr⟩ := legal_of_roomFor hroom hpos h8
  have hexec := exec_transform_of_legal hi (s := s.withDesc (s.eng.desc.withCount n)) hb ha hr
  obtain ⟨_, _, hbinding, -⟩ := exec_transform_cipher hi hexec
  obtain ⟨hparams, _, _, _, _, _, _, hdesc⟩ := exec_frame hexec
  have hblocks := exec_transform_holds hi (s := s.withDesc (s.eng.desc.withCount n)) hb hexec rfl
  have hcnt : (s.withDesc (s.eng.desc.withCount n)).eng.desc.inCnt.toNat = n := toNat_inCnt_withCount hlt _
  have hfirst := holds_afterBlocks_add (n := 0) (v := s.withDesc (s.eng.desc.withCount n)) ⟨⟨rfl, rfl, rfl⟩, rfl⟩
    (fun _ => ⟨rfl, rfl⟩) hblocks
  rw [hcnt, Nat.zero_add] at hfirst
  exact ⟨_, hexec, rfl, hbinding.trans hb, hparams, hdesc, hfirst⟩

/-- Pieces of whole blocks that there is room for end with `OK`, with the register and the memory of one loop over all
their blocks. -/
theorem runPieces_holds (b : Binding) (pieces : List (Instr × Nat)) {s : State} (hsize : s.params.memSize ≤ 2 ^ 32)
    (hpieces : ∀ p ∈ pieces, p.1.isTransform ∧ 0 < p.2 ∧ p.2 % 8 = 0) (hb : s.eng.binding = some b)
    (hroom : s.eng.desc.RoomFor s.params.memSize (pieces.map Prod.snd).sum) :
    ∃ u, runPieces pieces s = some u ∧ u.Holds (s.afterBlocks b ((pieces.map Prod.snd).sum / 8)) := by
  induction pieces generalizing s with
  | nil => exact ⟨s, rfl, ⟨rfl, rfl, rfl⟩, rfl⟩
  | cons p rest ih =>
    obtain ⟨i, n⟩ := p
    obtain ⟨⟨hi, hpos, h8⟩, hrest⟩ := List.forall_mem_cons.mp hpieces
    simp only [List.map_cons, List.sum_cons] at hroom ⊢
    generalize (rest.map Prod.snd).sum = k at ih hroom ⊢
    obtain ⟨u, hexec, hok, hbu, hparams, hdesc, hu⟩ := exec_piece hi hpos h8 hb (roomFor_of_add_left hroom)
    have hmoved : (u.movedOn n).eng.desc = (s.eng.desc.withCount n).movedOn n := congrArg (Descriptors.movedOn n) hdesc
    obtain ⟨w, hw, hheld⟩ := ih (s := u.movedOn n) (hparams ▸ hsize) hrest hbu
      (by rw [hmoved]; exact hparams ▸ roomFor_movedOn hroom)
    refine ⟨w, (runPieces_cons hexec hok rest).trans hw, ?_⟩
    rw [show (n + k) / 8 = n / 8 + k / 8 by omega]
    refine holds_afterBlocks_add (v := u.movedOn n) hu (fun hk => ?_) hheld
    rw [hmoved, show 8 * (n / 8) = n by omega]
    exact start_movedOn hroom (by omega) hsize

/-! ### The obligation -/

/-- Settles O54: the whole command and the pieces run the same blocks. -/
theorem splitInvariance : Obligations.SplitInvariance := by
  intro i s t pieces hi hp h hok hpos hpieces hsum
  obtain ⟨b, hb, -, -, -, hlegal⟩ := exec_transform_ok hi h hok
  obtain ⟨ha, hr⟩ := hlegal hpos
  obtain ⟨⟨_, _, hfb⟩, hmem⟩ := exec_transform_holds hi hb h hok
  obtain ⟨u, hu, ⟨_, _, hfb'⟩, hmem'⟩ := runPieces_holds b pieces (memSize_le hp) hpieces hb
    (hsum ▸ roomFor_of_legal ha hr)
  rw [hsum] at hfb' hmem'
  exact ⟨u, hu, hmem'.trans hmem.symm, hfb'.trans hfb.symm⟩

end Sys2Proof.Machine
end

section
/-! PROOFS. A decryptor over what an encryptor wrote. Block by block the decryptor's step undoes the encryptor's and leaves
the same register, so a loop over an output turns it back into the input. The encryptor's output leaves the material alone,
so both constructions start with the same cipher state. -/

namespace Sys2Proof.Machine

open Sys2Proof

/-! ### The block loop undone (R149, R166, R169) -/

/-- The decryptor's block step on the encryptor's output gives its input back and leaves the same cipher state. -/
theorem blockStep_roundTrip {e e' : Engine} (he : e.SameCipher e') (m : Mode) (macf macf' : Bool) (x : Block) :
    let r := e.blockStep ⟨.encrypt, m, macf⟩ x
    let r' := e'.blockStep ⟨.decrypt, m, macf'⟩ r.2
    r'.2 = x ∧ r.1.SameCipher r'.1 := by
  obtain ⟨hk, ht, hfb⟩ := he
  obtain ⟨hx, hfb'⟩ := blockStepRoundTrip m macf macf' e e' x hk ht hfb
  obtain ⟨hk₁, ht₁⟩ := blockStep_keys ⟨.encrypt, m, macf⟩ x e
  obtain ⟨hk₂, ht₂⟩ := blockStep_keys ⟨.decrypt, m, macf'⟩ (e.blockStep ⟨.encrypt, m, macf⟩ x).2 e'
  exact ⟨hx, hk₂.trans (hk.trans hk₁.symm), ht₂.trans (ht.trans ht₁.symm), hfb'⟩

/-- The decryptor's block loop over the bytes that the encryptor's loop wrote, each in place or apart, writes the bytes that
the encryptor read. -/
theorem blockLoop_roundTrip (mode : Mode) (macf macf' : Bool) {n ia oa ia' oa' : Nat} {e e' : Engine} {m m' : Memory}
    (he : e.SameCipher e') (hm : Memory.wf m = true) (hm' : Memory.wf m' = true)
    (h : InPlaceOrApart (8 * n) ia oa) (h' : InPlaceOrApart (8 * n) ia' oa')
    (hin : Memory.SameBytes (8 * n) (blockLoop ⟨.encrypt, mode, macf⟩ n ia oa e m).2 oa m' ia') :
    Memory.SameBytes (8 * n) m ia (blockLoop ⟨.decrypt, mode, macf'⟩ n ia' oa' e' m').2 oa' := by
  induction n generalizing ia oa ia' oa' e e' m m' with
  | zero => exact nofun
  | succ n ih =>
    rw [show 8 * (n + 1) = 8 + 8 * n by omega] at h h' hin ⊢
    obtain ⟨hfst, hrest⟩ := sameBytes_add.mp hin
    have hy : Memory.readBytes m' ia' 8 = (e.blockStep ⟨.encrypt, mode, macf⟩ (Memory.readBytes m ia 8)).2 := by
      ext1 j hj
      rw [getElem_readBytes, hfst j hj, blockLoop_first_output _ n ia oa e hm hj]
    obtain ⟨hx, hcipher⟩ := blockStep_roundTrip he mode macf macf' (Memory.readBytes m ia 8)
    rw [← hy] at hx hcipher
    have hinput : Memory.SameBytes (8 * n)
        (blockLoop ⟨.encrypt, mode, macf⟩ (n + 1) ia oa e m).2 (oa + 8)
        (blockOnce ⟨.decrypt, mode, macf'⟩ ia' oa' e' m').2 (ia' + 8) := fun j hj => by
      rw [blockOnce_keeps_rest _ h' e' hm' j hj, hrest j hj]
    have hlater := ih (e := (blockOnce ⟨.encrypt, mode, macf⟩ ia oa e m).1)
      (e' := (blockOnce ⟨.decrypt, mode, macf'⟩ ia' oa' e' m').1) hcipher (wf_writeBytes hm _ _)
      (wf_writeBytes hm' _ _) (inPlaceOrApart_tail h) (inPlaceOrApart_tail h') hinput
    refine sameBytes_add.mpr ⟨fun j hj => ?_, fun j hj => ?_⟩
    · rw [blockLoop_first_output _ n ia' oa' e' hm' hj, hx, getElem_readBytes]
    · exact (hlater j hj).trans (blockOnce_keeps_rest _ h e hm j hj)

/-! ### Constructions from the same material (R185, R186) -/

/-- The two states have the same material at the same addresses, read by the same rules. -/
def State.SameMaterial (s s' : State) : Prop :=
  s'.params = s.params ∧ s'.eng.desc = s.eng.desc ∧
    Memory.SameBytes 32 s.mem s.eng.desc.keyBase.toNat s'.mem s.eng.desc.keyBase.toNat ∧
    Memory.SameBytes 64 s.mem s.eng.desc.sboxBase.toNat s'.mem s.eng.desc.sboxBase.toNat ∧
    Memory.SameBytes 8 s.mem s.eng.desc.ivBase.toNat s'.mem s.eng.desc.ivBase.toNat

/-- What a construction of `b` that ends with `OK` leaves. -/
def State.created (b : Binding) (s : State) : State := (createAction b s).1.finish .ok 0

theorem created_desc (b : Binding) (s : State) : (s.created b).eng.desc = s.eng.desc := (rfl)

theorem created_eng_k (b : Binding) (s : State) :
    (s.created b).eng.k = keySched (Memory.readBytes s.mem s.eng.desc.keyBase.toNat 32) := createAction_eng_k b s

theorem created_eng_t (b : Binding) (s : State) :
    (s.created b).eng.t = sboxBuild s.params.pairing s.materialGroups := createAction_eng_t b s

theorem created_eng_fb (b : Binding) (s : State) :
    (s.created b).eng.fb
      = fenc (s.created b).eng.k (s.created b).eng.t (Memory.readBytes s.mem s.eng.desc.ivBase.toNat 8) :=
  createAction_eng_fb b s

/-- Constructions from the same material leave the same cipher state, whatever they bind. -/
theorem created_sameCipher {s s' : State} (h : s.SameMaterial s') (b b' : Binding) :
    (s.created b).eng.SameCipher (s'.created b').eng := by
  obtain ⟨hparams, hdesc, hkey, hsbox, hiv⟩ := h
  have hk : (s'.created b').eng.k = (s.created b).eng.k := by
    rw [created_eng_k, created_eng_k, hdesc, readBytes_eq_of_sameBytes hkey]
  have ht : (s'.created b').eng.t = (s.created b).eng.t := by
    rw [created_eng_t, created_eng_t, State.materialGroups, State.materialGroups, hparams, hdesc,
      readBytes_eq_of_sameBytes hsbox]
  refine ⟨hk, ht, ?_⟩
  rw [created_eng_fb, created_eng_fb, hk, ht, hdesc, readBytes_eq_of_sameBytes hiv]

/-- A transform whose output is clear of the material leaves the material as it was. -/
theorem exec_transform_sameMaterial {i : Instr} (hi : i.isTransform) {s t : State} (hm : Memory.wf s.mem = true)
    (h : exec i s = .next t) (hclear : s.eng.desc.outputClearOfMaterial) : s.SameMaterial t := by
  obtain ⟨hframe, -, hmem⟩ := transformFrame i s t hi hm h
  obtain ⟨hkey, hsbox, hiv⟩ := hclear
  refine ⟨by rw [hframe], by rw [hframe], fun j hj => hmem _ ?_, fun j hj => hmem _ ?_, fun j hj => hmem _ ?_⟩ <;>
    omega

/-! ### The obligation -/

/-- The descriptors with the output buffer as the input buffer too. -/
def Descriptors.overOutput (d : Descriptors) : Descriptors :=
  { d with inBase := d.outBase, inSize := d.outSize, inOff := d.outOff }

/-- What is legal for an output is legal for the input that it becomes. -/
theorem legal_overOutput {d : Descriptors} {memSize : Nat} (ha : d.xblkArgsLegal) (hr : d.rangesExist memSize) :
    d.overOutput.xblkArgsLegal ∧ d.overOutput.rangesExist memSize := by
  obtain ⟨hpos, h8, _, hoff, _, hsize⟩ := ha
  obtain ⟨_, hend⟩ := hr
  exact ⟨⟨hpos, h8, hoff, hoff, hsize, hsize⟩, hend, hend⟩

/-- On a bound engine with legal arguments and ranges `XBLK` ends with `OK` and the memory of its blocks. -/
theorem exec_xblk_of_legal {s : State} {b : Binding} (hb : s.eng.binding = some b) (ha : s.eng.desc.xblkArgsLegal)
    (hr : s.eng.desc.rangesExist s.params.memSize) :
    ∃ t, exec .xblk s = .next t ∧ t.lastCommandOk ∧ t.mem = (s.afterBlocks b (s.eng.desc.inCnt.toNat / 8)).2 := by
  have hexec := exec_transform_of_legal (.inl rfl) hb ha hr
  obtain ⟨_, hmem⟩ := exec_transform_holds (.inl rfl) hb hexec rfl
  exact ⟨_, hexec, rfl, hmem⟩

/-- Settles O56: the four commands end with `OK`, the two constructions leave the same cipher state, and the decryptor's
loop over the encryptor's output undoes it. -/
theorem decryptorRecoversPlaintext : Obligations.DecryptorRecoversPlaintext := by
  intro s m macf macf' hm hlen hex ha hr hrange hclear
  obtain ⟨s2, hexec2, hok2, hmem2⟩ := exec_xblk_of_legal (s := s.created ⟨.encrypt, m, macf⟩) rfl ha hr
  have hmaterial : s.SameMaterial s2 :=
    exec_transform_sameMaterial (s := s.created ⟨.encrypt, m, macf⟩) (.inl rfl) hm hexec2 hclear
  have ⟨hp2, hd2, _, _, _⟩ := hmaterial
  have hd3 : (s2.created ⟨.decrypt, m, macf'⟩).eng.desc = s.eng.desc := (created_desc ..).trans hd2
  obtain ⟨ha', hr'⟩ := legal_overOutput ha hr
  obtain ⟨s4, hexec4, hok4, hmem4⟩ := exec_xblk_of_legal (b := ⟨.decrypt, m, macf'⟩)
    (s := (s2.created ⟨.decrypt, m, macf'⟩).withDesc s.eng.desc.overOutput) rfl ha' (hp2 ▸ hr')
  refine ⟨_, s2, _, s4, createTransform_ok .encrypt m macf hlen hex, hexec2,
    createTransform_ok .decrypt m macf' (hd2 ▸ hlen) (hd2 ▸ hp2 ▸ hex), ?_, rfl, hok2, rfl, hok4, ?_⟩
  · change exec .xblk ((s2.created ⟨.decrypt, m, macf'⟩).withDesc
      (s2.created ⟨.decrypt, m, macf'⟩).eng.desc.overOutput) = _
    rw [hd3, hexec4]
  · have ⟨hpos, h8, _, _, _, _⟩ := ha
    have hcnt := (count_toNat hpos.le).2
    have hbytes : s.eng.desc.inCnt.toNat = 8 * (s.eng.desc.inCnt.toNat / 8) := by omega
    have hapart := inPlaceOrApart_of_legal ha hrange
    rw [hbytes] at hapart ⊢
    have hwf2 : Memory.wf s2.mem = true := hmem2 ▸ blockLoop_wf _ _ _ _ _ hm
    have hround := blockLoop_roundTrip m macf macf'
      (e' := ((s2.created ⟨.decrypt, m, macf'⟩).withDesc s.eng.desc.overOutput).eng)
      (created_sameCipher hmaterial ⟨.encrypt, m, macf⟩ ⟨.decrypt, m, macf'⟩) hm hwf2 hapart
      (ia' := s.eng.desc.outStart.toNat) (.inl rfl) (hmem2 ▸ fun _ _ => rfl)
    rw [hmem4]
    exact hround

end Sys2Proof.Machine
end

section
/-! PROOFS. How a command fails (60_exceptions.md). The code of a command is read off its binding, its descriptors and the
size of the memory, and a command with a code other than `OK` leaves the state that raising the code leaves; as no command
reads `STATUS` or `RESULT`, such a command issued again fails again. -/

namespace Sys2Proof.Machine

open Sys2Proof

/-! ### The code a command ends with (R210, R213, R216) -/

/-- The code of a command, from the binding, the descriptors and the size of the memory: that of the first check that fails,
or `OK`. -/
def endCode (i : Instr) (binding : Option Binding) (d : Descriptors) (memSize : Nat) : StatusCode :=
  match i, binding with
  | .crenc mode _, _ | .crdec mode _, _ =>
    if modeOfField mode = none then .errCfg else (firstFailure (createChecks memSize d)).getD .ok
  | .xblk, none | .xfin, none => .errState
  | .xblk, some _ => (firstFailure (xblkArgChecks d ++ transformBusChecks memSize d)).getD .ok
  | .xfin, some b => (firstFailure (xfinArgChecks b d ++ transformBusChecks memSize d)).getD .ok
  | .disp, _ => .ok

theorem commandFrame_status {checks : List (Bool × StatusCode)} {action : State → State × Word} {s t : State}
    (h : commandFrame checks action s = .next t) : t.eng.status = (firstFailure checks).getD .ok := by
  rcases commandFrame_cases checks action s with ⟨code, hf, hu⟩ | ⟨hf, hu⟩ <;>
    obtain rfl := Host.Outcome.next.inj (hu.symm.trans h) <;> rw [hf] <;> rfl

theorem createTransform_status {dir : Direction} {mode : BitVec 2} {macf : Bool} {s t : State}
    (h : createTransform dir mode macf s = .next t) :
    t.eng.status
      = if modeOfField mode = none then .errCfg
        else (firstFailure (createChecks s.params.memSize s.eng.desc)).getD .ok := by
  unfold createTransform at h
  cases hm : modeOfField mode with
  | none =>
    rw [hm] at h
    rw [raise_eq_next.mp h]
    rfl
  | some m =>
    rw [hm] at h
    exact commandFrame_status h

/-- A command ends with its code. -/
theorem exec_status {i : Instr} {s t : State} (h : exec i s = .next t) :
    t.eng.status = endCode i s.eng.binding s.eng.desc s.params.memSize := by
  cases i with
  | crenc mode macf => exact createTransform_status (exec_crenc mode macf s ▸ h)
  | crdec mode macf => exact createTransform_status (exec_crdec mode macf s ▸ h)
  | xblk =>
    cases hb : s.eng.binding with
    | none =>
      obtain rfl := Host.Outcome.next.inj ((exec_transform_unbound (.inl rfl) hb).symm.trans h)
      rfl
    | some b => exact commandFrame_status (execXblk_bound hb ▸ exec_xblk s ▸ h)
  | xfin =>
    cases hb : s.eng.binding with
    | none =>
      obtain rfl := Host.Outcome.next.inj ((exec_transform_unbound (.inr rfl) hb).symm.trans h)
      rfl
    | some b => exact commandFrame_status (execXfin_bound hb ▸ exec_xfin s ▸ h)
  | disp =>
    obtain rfl := Host.Outcome.next.inj h
    rfl

/-! ### Which codes each command can end with (R210) -/

theorem createTransform_codes {dir : Direction} {mode : BitVec 2} {macf : Bool} {s t : State}
    (h : createTransform dir mode macf s = .next t) :
    t.eng.status = .ok ∨ t.eng.status = .errCfg ∨ t.eng.status = .errBus := by
  rcases createTransform_cases dir mode macf s with ⟨code, hc, hu⟩ | ⟨_, _, _, hu⟩ <;>
    obtain rfl := Host.Outcome.next.inj (hu.symm.trans h)
  · exact .inr hc
  · exact .inl rfl

theorem exec_transform_codes {i : Instr} (hi : i.isTransform) {s t : State} (h : exec i s = .next t) :
    (s.eng.binding = none ∧ t.eng.status = .errState) ∨
    (s.eng.binding ≠ none ∧ (t.eng.status = .ok ∨ t.eng.status = .errArg ∨ t.eng.status = .errBus)) := by
  cases hb : s.eng.binding with
  | none =>
    obtain rfl := Host.Outcome.next.inj ((exec_transform_unbound hi hb).symm.trans h)
    exact .inl ⟨rfl, rfl⟩
  | some b =>
    refine .inr ⟨nofun, ?_⟩
    rcases hi with rfl | rfl
    · rcases execXblk_ends hb with ⟨_, hu⟩ | ⟨_, _, hu⟩ | ⟨_, _, hu⟩ <;>
        obtain rfl := Host.Outcome.next.inj (hu.symm.trans h) <;> simp
    · rcases execXfin_ends hb with ⟨_, hu⟩ | ⟨_, _, _, hu⟩ | ⟨_, _, hu⟩ <;>
        obtain rfl := Host.Outcome.next.inj (hu.symm.trans h) <;> simp

/-- Which command ends with which code; no command ends with `ERR_CMD`. -/
theorem exec_codes {i : Instr} {s t : State} (h : exec i s = .next t) :
    t.eng.status ≠ .errCmd ∧
    (t.eng.status = .errCfg → ∃ mode macf, i = .crenc mode macf ∨ i = .crdec mode macf) ∧
    (t.eng.status = .errArg → i.isTransform ∧ s.eng.binding ≠ none) ∧
    (t.eng.status = .errState → i.isTransform ∧ s.eng.binding = none) ∧
    (t.eng.status = .errBus → i ≠ .disp) := by
  cases i with
  | crenc mode macf => rcases createTransform_codes (exec_crenc mode macf s ▸ h) with hc | hc | hc <;> simp [hc]
  | crdec mode macf => rcases createTransform_codes (exec_crdec mode macf s ▸ h) with hc | hc | hc <;> simp [hc]
  | xblk =>
    have hi : Instr.isTransform .xblk := .inl rfl
    rcases exec_transform_codes hi h with ⟨hb, hc⟩ | ⟨hb, hc | hc | hc⟩ <;> simp [hc, hb, hi]
  | xfin =>
    have hi : Instr.isTransform .xfin := .inr rfl
    rcases exec_transform_codes hi h with ⟨hb, hc⟩ | ⟨hb, hc | hc | hc⟩ <;> simp [hc, hb, hi]
  | disp => simp [exec_status h, endCode]

/-! ### The state a failed command leaves (R214) -/

/-- A command that ends with a code other than `OK` leaves what raising that code leaves. -/
theorem exec_failed {i : Instr} {s t : State} (h : exec i s = .next t) (hne : t.eng.status ≠ .ok) :
    t = s.finish t.eng.status 0 := by
  have create {dir : Direction} {mode : BitVec 2} {macf : Bool} (hc : createTransform dir mode macf s = .next t) :
      t = s.finish t.eng.status 0 := by
    rcases createTransform_cases dir mode macf s with ⟨code, _, hu⟩ | ⟨_, _, _, hu⟩ <;>
      obtain rfl := Host.Outcome.next.inj (hu.symm.trans hc)
    · rfl
    · exact absurd rfl hne
  have transform (hi : i.isTransform) : t = s.finish t.eng.status 0 := by
    rcases exec_transform_cases hi s with ⟨code, hu⟩ | ⟨u, hu, hok⟩ <;>
      obtain rfl := Host.Outcome.next.inj (hu.symm.trans h)
    · rfl
    · exact absurd hok hne
  cases i with
  | crenc mode macf => exact create (exec_crenc mode macf s ▸ h)
  | crdec mode macf => exact create (exec_crdec mode macf s ▸ h)
  | xblk => exact transform (.inl rfl)
  | xfin => exact transform (.inr rfl)
  | disp => exact absurd (exec_status h) hne

/-! ### The obligations -/

/-- Settles O6, by what a step does while no access waits. -/
theorem idleStepRetainsState : Obligations.IdleStepRetainsState := fun _ => step_idle

/-- Settles O15: a command that fails and an illegal word both raise their code on the state without the access. -/
theorem failedCommandChangesNothing : Obligations.FailedCommandChangesNothing := by
  intro s t w rest hin h hne
  rw [step_of_inbox hin, hostStep_writeCmd] at h
  rcases issue_cases w { s with inbox := rest } with ⟨i, _, hu⟩ | ⟨_, _, hu⟩
  · exact exec_failed (hu.symm.trans h) hne
  · obtain rfl := Host.Outcome.next.inj (hu.symm.trans h)
    rfl

/-- Settles O16: the code is `endCode`, and a failed command leaves a state that differs from the one before it in `STATUS`
and `RESULT` alone, which no command reads. -/
theorem rejectedCommandFailsAgain : Obligations.RejectedCommandFailsAgain := by
  refine ⟨fun i s s' t hdesc hbinding hsize h => ?_, fun i s t h hne => ?_⟩
  · obtain ⟨t', h'⟩ := exec_next i s'
    exact ⟨t', h', by rw [exec_status h', exec_status h, hdesc, hbinding, hsize]⟩
  · calc exec i t = exec i (s.finish t.eng.status 0) := by rw [← exec_failed h hne]
      _ = exec i s := exec_finish ..
      _ = .next t := h

/-- Settles O18: the codes of the constructions, of the two transform commands and of `DISP`; `ERR_CMD` is none of them and
is what the write of an illegal word ends with. -/
theorem statusCodesOfEachCommand : Obligations.StatusCodesOfEachCommand := by
  refine ⟨fun _ _ _ => exec_codes, fun s t w rest hin h => ?_⟩
  rw [step_of_inbox hin, hostStep_writeCmd] at h
  rcases issue_cases w { s with inbox := rest } with ⟨i, hw, hu⟩ | ⟨why, hw, hu⟩
  · obtain ⟨hne, -⟩ := exec_codes (hu.symm.trans h)
    simp [hw, hne, Decoded.instr?]
  · obtain rfl := Host.Outcome.next.inj (hu.symm.trans h)
    simp [hw, Decoded.instr?]

end Sys2Proof.Machine
end

section
/-! PROOFS. Several engines (60_exceptions.md R225). An access other than a reset and the addressing of an engine reads and
changes nothing but the engine addressed and its data memory. Addressing an engine moves it into the place of the one
addressed and changes none; so a command of engine `n` updates the engines at `n` and the data memories at the number that
`n` is given, and two such updates at different numbers commute. -/

namespace Sys2Proof.Machine

open Sys2Proof

/-! ### The engines and the data memories by number -/

@[simp] theorem engineAt_engineId (s : State) : s.engineAt s.engineId = some s.eng := if_pos rfl

@[simp] theorem memoryAt_memoryId (s : State) : s.memoryAt s.memoryId = some s.mem := if_pos rfl

theorem engineAt_isSome {s : State} {n : Nat} : (s.engineAt n).isSome = true ↔ n ∈ s.engineIds := by
  unfold State.engineAt State.engineIds
  by_cases hn : n = s.engineId
  · simp [hn]
  · simp [hn, findNumbered_isSome]

/-- An engine of the system and the data memory that it is given are there. -/
theorem inv_exists_engine_memory {s : State} (hs : s.Inv) {n : Nat} (hn : n < s.params.nInst) :
    ∃ e m, s.engineAt n = some e ∧ s.memoryAt (s.params.memoryOf n) = some m := by
  obtain ⟨e, he⟩ := Option.isSome_iff_exists.mp (engineAt_isSome.mpr ((mem_engineIds_iff hs).mpr hn))
  obtain ⟨m, hm⟩ := Option.isSome_iff_exists.mp (inv_memoryAt_isSome hs hn)
  exact ⟨e, m, he, hm⟩

/-- Another engine in the place of the one addressed is another engine at its number. -/
theorem engineAt_setEng (s : State) (e : Engine) (m : Memory) :
    State.engineAt { s with eng := e, mem := m } = Function.update s.engineAt s.engineId (some e) := by
  funext n
  by_cases hn : n = s.engineId
  · rw [hn, Function.update_self]
    exact if_pos rfl
  · rw [Function.update_of_ne hn]
    exact (if_neg hn).trans (if_neg hn).symm

/-- Another data memory in the place of that of the engine addressed is another data memory at its number. -/
theorem memoryAt_setMem (s : State) (e : Engine) (m : Memory) :
    State.memoryAt { s with eng := e, mem := m } = Function.update s.memoryAt s.memoryId (some m) := by
  funext n
  by_cases hn : n = s.memoryId
  · rw [hn, Function.update_self]
    exact if_pos rfl
  · rw [Function.update_of_ne hn]
    exact (if_neg hn).trans (if_neg hn).symm

/-! ### What a command word does -/

theorem issue_next (w : Word) (s : State) : ∃ t, issue w s = .next t := hostWrite_next 0 w s

/-- A write of `CMD` reads and changes nothing of the machine but the engine addressed, its data memory and the parameters. -/
theorem issue_local {w : Word} {s t : State} (h : issue w s = .next t) (s' : State) :
    issue w { s' with params := s.params, eng := s.eng, mem := s.mem }
      = .next { s' with params := s.params, eng := t.eng, mem := t.mem } := by
  unfold issue at h ⊢
  cases hw : decodeWord w with
  | command i =>
    rw [hw] at h
    exact exec_local h s'
  | illegal why =>
    rw [hw] at h
    obtain rfl := raise_eq_next.mp h
    rfl

/-- The engine and the data memory that the write of `w` to `CMD` leaves of an engine and the memory it is given. -/
def wordEffect (w : Word) (p : Params) (e : Engine) (m : Memory) : Engine × Memory :=
  match issue w { State.reset with params := p, eng := e, mem := m } with
  | .next t => (t.eng, t.mem)
  | _ => (e, m)

/-- A write of `CMD` has its effect on the engine addressed and its data memory, and no other. -/
theorem issue_eq_wordEffect (w : Word) (s : State) :
    issue w s
      = .next { s with
          eng := (wordEffect w s.params s.eng s.mem).1
          mem := (wordEffect w s.params s.eng s.mem).2 } := by
  obtain ⟨t, ht⟩ := issue_next w { State.reset with params := s.params, eng := s.eng, mem := s.mem }
  rw [wordEffect, ht]
  exact issue_local ht s

/-! ### What every other access does -/

/-- An access other than a reset and the addressing of an engine leaves the other engines and the other data memories as they
are, and does the same whatever they are. -/
theorem hostStep_local {op : HostOp} (hreset : op ≠ .reset) (hselect : ∀ n, op ≠ .select n) {s t : State}
    (h : hostStep op s = .next t) :
    t = { s with eng := t.eng, mem := t.mem, replies := t.replies } ∧
    ∀ (peers : List (Nat × Engine)) (otherMems : List (Nat × Memory)),
      hostStep op { s with peers := peers, otherMems := otherMems }
        = .next { t with peers := peers, otherMems := otherMems } := by
  cases op with
  | writeReg n v =>
    by_cases hn : n = 0
    · subst hn
      rw [hostStep_writeCmd, issue_eq_wordEffect] at h
      obtain rfl := Host.Outcome.next.inj h
      exact ⟨rfl, fun _ _ => by rw [hostStep_writeCmd, issue_eq_wordEffect]⟩
    · rw [hostStep_writeReg hn] at h
      obtain rfl := Host.Outcome.next.inj h
      exact ⟨rfl, fun _ _ => hostStep_writeReg hn v _⟩
  | readReg n =>
    obtain rfl := Host.Outcome.next.inj h
    exact ⟨rfl, fun _ _ => rfl⟩
  | writeMem addr bytes =>
    replace h : hostWriteMem addr bytes s = .next t := h
    rcases hostWriteMem_cases addr bytes s with ⟨hr, hu⟩ | ⟨_, hu⟩ <;> rw [hu] at h <;> cases h
    exact ⟨rfl, fun _ _ => if_pos hr⟩
  | readMem addr n =>
    replace h : hostReadMem addr n s = .next t := h
    rcases hostReadMem_cases addr n s with ⟨hr, hu⟩ | ⟨_, hu⟩ <;> rw [hu] at h <;> cases h
    exact ⟨rfl, fun _ _ => if_pos hr⟩
  | select n => exact absurd rfl (hselect n)
  | reset => exact absurd rfl hreset

/-- A step is local as its access is, and an idle step keeps everything. -/
theorem step_local {s t : State} (hreset : ∀ rest, s.inbox ≠ .reset :: rest)
    (hselect : ∀ n rest, s.inbox ≠ .select n :: rest) (h : step s = .next t) :
    t = { s with eng := t.eng, mem := t.mem, replies := t.replies, inbox := t.inbox } ∧
    ∀ (peers : List (Nat × Engine)) (otherMems : List (Nat × Memory)),
      step { s with peers := peers, otherMems := otherMems }
        = .next { t with peers := peers, otherMems := otherMems } := by
  rcases nextAccess_cases s with ⟨hin, -⟩ | ⟨op, rest, hin, -⟩
  · obtain rfl := Host.Outcome.next.inj ((step_idle hin).symm.trans h)
    exact ⟨rfl, fun _ _ => step_idle hin⟩
  · rw [step_of_inbox hin] at h
    obtain ⟨hframe, hsame⟩ := hostStep_local (fun hop => hreset rest (hop ▸ hin))
      (fun n hop => hselect n rest (hop ▸ hin)) h
    refine ⟨?_, fun peers otherMems => ?_⟩
    · rw [hframe]
    · rw [step_of_inbox (s := { s with peers := peers, otherMems := otherMems }) hin]
      exact hsame peers otherMems

/-! ### A command of one of the engines -/

theorem runSteps_add (m n : Nat) (s : State) : runSteps (m + n) s = (runSteps m s).bind (runSteps n) := by
  induction m generalizing s with
  | zero => rw [Nat.zero_add]; rfl
  | succ m ih =>
    rw [Nat.add_right_comm, runSteps, runSteps]
    cases step s with
    | next t => exact ih t
    | fault f => rfl
    | refused r => rfl

/-- Addressing an engine changes nothing but which one is addressed. -/
theorem step_select {s t : State} (hs : s.Inv) {n : Nat} {rest : List HostOp} (hin : s.inbox = .select n :: rest)
    (h : step s = .next t) :
    t.params = s.params ∧ t.inbox = rest ∧ t.engineId = n ∧ t.engineAt = s.engineAt ∧ t.memoryAt = s.memoryAt := by
  rw [step_of_inbox hin] at h
  replace h : selectEngine n { s with inbox := rest } = .next t := h
  obtain ⟨hid, hengines, hmemories⟩ := selectEngine_at h hs.enginesDistinct hs.memoriesDistinct
  have hkept : t.params = s.params ∧ t.inbox = rest := by
    rcases selectEngine_cases n { s with inbox := rest } with ⟨_, hu⟩ | ⟨_, _, _, _, _, hu⟩ | ⟨_, _, hu⟩ <;>
      rw [hu] at h <;> cases h <;> exact ⟨rfl, rfl⟩
  exact ⟨hkept.1, hkept.2, hid, funext hengines, funext hmemories⟩

/-- The write of a command word updates the engine addressed and its data memory, each at its number. -/
theorem step_writeCmd {s : State} {w : Word} {rest : List HostOp} (hin : s.inbox = .writeReg 0 w :: rest) :
    ∃ t, step s = .next t ∧ t.params = s.params ∧ t.inbox = rest ∧
      t.engineAt = Function.update s.engineAt s.engineId (some (wordEffect w s.params s.eng s.mem).1) ∧
      t.memoryAt = Function.update s.memoryAt s.memoryId (some (wordEffect w s.params s.eng s.mem).2) := by
  rw [step_of_inbox hin, hostStep_writeCmd, issue_eq_wordEffect]
  exact ⟨_, rfl, rfl, rfl, engineAt_setEng { s with inbox := rest } _ _, memoryAt_setMem { s with inbox := rest } _ _⟩

/-- Addressing engine `n` and writing `w` to its `CMD` takes two steps, which update the engines at `n` and the data memories
at the number that `n` is given. -/
theorem runSteps_commandAt {s : State} (hs : s.Inv) {n : Nat} (hn : n < s.params.nInst) {w : Word} {rest : List HostOp}
    (hin : s.inbox = .select n :: .writeReg 0 w :: rest) {e : Engine} {m : Memory} (he : s.engineAt n = some e)
    (hm : s.memoryAt (s.params.memoryOf n) = some m) :
    ∃ t, runSteps 2 s = some t ∧ t.Inv ∧ t.params = s.params ∧ t.inbox = rest ∧
      t.engineAt = Function.update s.engineAt n (some (wordEffect w s.params e m).1) ∧
      t.memoryAt = Function.update s.memoryAt (s.params.memoryOf n) (some (wordEffect w s.params e m).2) := by
  obtain ⟨u, hu⟩ : ∃ u, step s = .next u := by
    rw [step_of_inbox hin]
    exact (selectEngine_answer (inv_withInbox hs _) n).elim And.right fun h => absurd hn h.1
  obtain ⟨hparams, hinbox, rfl, hengines, hmemories⟩ := step_select hs hin hu
  obtain ⟨t, ht, htparams, htinbox, htengines, htmemories⟩ := step_writeCmd hinbox
  have hmid : u.memoryId = s.params.memoryOf u.engineId := by rw [State.memoryId, hparams]
  have heng : u.eng = e := Option.some.inj <| by rw [← engineAt_engineId, hengines, he]
  have hmem : u.mem = m := Option.some.inj <| by rw [← memoryAt_memoryId, hmid, hmemories, hm]
  refine ⟨t, by simp only [runSteps, hu, ht], stepKeepsInvariant u t (stepKeepsInvariant s u hs hu) ht,
    htparams.trans hparams, htinbox, ?_, ?_⟩
  · rw [htengines, hengines, hparams, heng, hmem]
  · rw [htmemories, hmemories, hmid, hparams, heng, hmem]

/-- The commands of two engines that are given different data memories, one after the other, each have their effect on what
was there before both. -/
theorem runSteps_two_commands {s : State} (hs : s.Inv) {a b : Nat} (ha : a < s.params.nInst) (hb : b < s.params.nInst)
    (hab : a ≠ b) (hmem : s.params.memoryOf a ≠ s.params.memoryOf b) (w v : Word) {ea eb : Engine} {ma mb : Memory}
    (hea : s.engineAt a = some ea) (hma : s.memoryAt (s.params.memoryOf a) = some ma)
    (heb : s.engineAt b = some eb) (hmb : s.memoryAt (s.params.memoryOf b) = some mb) :
    ∃ t, runSteps 4 { s with inbox := [.select a, .writeReg 0 w, .select b, .writeReg 0 v] } = some t ∧
      t.engineAt = Function.update (Function.update s.engineAt a (some (wordEffect w s.params ea ma).1))
        b (some (wordEffect v s.params eb mb).1) ∧
      t.memoryAt = Function.update
        (Function.update s.memoryAt (s.params.memoryOf a) (some (wordEffect w s.params ea ma).2))
        (s.params.memoryOf b) (some (wordEffect v s.params eb mb).2) := by
  obtain ⟨u, hu, hinv, hparams, hin, hengines, hmemories⟩ :=
    runSteps_commandAt (inv_withInbox hs [.select a, .writeReg 0 w, .select b, .writeReg 0 v]) ha rfl hea hma
  replace hengines : u.engineAt = Function.update s.engineAt a _ := hengines
  replace hmemories : u.memoryAt = Function.update s.memoryAt (s.params.memoryOf a) _ := hmemories
  replace hparams : u.params = s.params := hparams
  obtain ⟨t, ht, -, -, -, htengines, htmemories⟩ :=
    runSteps_commandAt hinv (n := b) (hparams ▸ hb) hin (e := eb) (m := mb)
      (by rw [hengines, Function.update_of_ne hab.symm, heb])
      (by rw [hmemories, hparams, Function.update_of_ne hmem.symm, hmb])
  rw [hengines, hparams] at htengines
  rw [hmemories, hparams] at htmemories
  exact ⟨t, by rw [runSteps_add 2 2, hu]; exact ht, htengines, htmemories⟩

/-! ### The obligations -/

/-- Settles O53: an access other than addressing an engine leaves the other engines and the other data memories as they are,
and addressing one keeps every engine and every data memory at its number. -/
theorem enginesDoNotInteract : Obligations.EnginesDoNotInteract := by
  intro s t hs h hreset
  have select (n : Nat) (rest : List HostOp) (hin : s.inbox = .select n :: rest) :
      t.engineId = n ∧ (∀ x, t.engineAt x = s.engineAt x) ∧ ∀ m, t.memoryAt m = s.memoryAt m := by
    obtain ⟨-, -, hid, hengines, hmemories⟩ := step_select hs hin h
    exact ⟨hid, congrFun hengines, congrFun hmemories⟩
  by_cases hselect : ∃ n rest, s.inbox = .select n :: rest
  · obtain ⟨n, rest, hin⟩ := hselect
    obtain ⟨-, hengines, hmemories⟩ := select n rest hin
    exact ⟨fun x _ => hengines x, fun m _ => hmemories m, select⟩
  · obtain ⟨hframe, -⟩ := step_local hreset (fun n rest hin => hselect ⟨n, rest, hin⟩) h
    refine ⟨fun n hn => ?_, fun m hm => ?_, select⟩
    · rw [hframe]
      exact (if_neg hn).trans (if_neg hn).symm
    · rw [hframe]
      exact (if_neg hm).trans (if_neg hm).symm

/-- Settles O57: each access but the two excluded does the same whatever the other engines and memories are. -/
theorem stepIgnoresOtherEngines : Obligations.StepIgnoresOtherEngines := by
  intro s t peers otherMems h hreset hselect
  obtain ⟨-, hsame⟩ := step_local hreset hselect h
  exact hsame peers otherMems

/-- Settles O58: in either order the engines are updated at `a` and `b` and the data memories at the two numbers given, and
updates at different numbers commute. -/
theorem commandsOfTwoEnginesCommute : Obligations.CommandsOfTwoEnginesCommute := by
  intro s a b w v hs ha hb hab hmem
  obtain ⟨ea, ma, hea, hma⟩ := inv_exists_engine_memory hs ha
  obtain ⟨eb, mb, heb, hmb⟩ := inv_exists_engine_memory hs hb
  obtain ⟨t, ht, htengines, htmemories⟩ := runSteps_two_commands hs ha hb hab hmem w v hea hma heb hmb
  obtain ⟨t', ht', hengines', hmemories'⟩ :=
    runSteps_two_commands hs hb ha hab.symm hmem.symm v w heb hmb hea hma
  refine ⟨t, t', ht, ht', fun n => ?_, fun m => ?_⟩
  · rw [htengines, hengines', Function.update_comm hab]
  · rw [htmemories, hmemories', Function.update_comm hmem]

end Sys2Proof.Machine
end

section
/-! PROOFS. The platform's reset (70_reset_and_hazards.md R240, R241), engine by engine and data memory by data memory. -/

namespace Sys2Proof.Machine

open Sys2Proof

/-- At every number at which an engine stands, the platform's reset puts a reset engine. -/
theorem engineAt_platformReset (s : State) (n : Nat) :
    s.platformReset.engineAt n = (s.engineAt n).map fun _ => Engine.afterReset s.resets n := by
  unfold State.engineAt
  rw [platformReset_engineId, platformReset_eng, platformReset_peers]
  by_cases hn : n = s.engineId
  · rw [if_pos hn, if_pos hn, hn, Option.map_some]
  · rw [if_neg hn, if_neg hn]
    exact findNumbered_map (fun id _ => Engine.afterReset s.resets id) n s.peers

/-- At every number at which a data memory stands, the platform's reset puts `M0`. -/
theorem memoryAt_platformReset (s : State) (m : Nat) :
    s.platformReset.memoryAt m = (s.memoryAt m).map fun _ => s.params.m0 := by
  have hid : s.platformReset.memoryId = s.memoryId := rfl
  unfold State.memoryAt
  rw [hid, platformReset_mem, platformReset_otherMems]
  by_cases hm : m = s.memoryId
  · rw [if_pos hm, if_pos hm, Option.map_some]
  · rw [if_neg hm, if_neg hm]
    exact findNumbered_map (fun _ _ => s.params.m0) m s.otherMems

/-- Every register of an engine after the platform's reset reads 0, whatever its private state. -/
theorem readReg_afterReset (draw id r : Nat) : (Engine.afterReset draw id).readReg r = 0 :=
  readReg_eq_zero rfl rfl rfl rfl r

/-- Settles O11: the step is the platform's reset, which puts a reset engine at the number of every engine and `M0` at the
number of every data memory. -/
theorem platformResetClearsRegisters : Obligations.PlatformResetClearsRegisters := by
  intro s rest hin
  refine ⟨State.platformReset { s with inbox := rest }, step_of_inbox hin, rfl, rfl, rfl,
    memoryAt_platformReset { s with inbox := rest }, fun n => ?_⟩
  have hengine : State.engineAt (State.platformReset { s with inbox := rest }) n
      = (s.engineAt n).map fun _ => Engine.afterReset s.resets n :=
    engineAt_platformReset { s with inbox := rest } n
  rw [hengine]
  refine ⟨Option.isSome_map, fun e he => ?_⟩
  obtain ⟨-, -, rfl⟩ := Option.map_eq_some_iff.mp he
  exact ⟨rfl, rfl, readReg_afterReset s.resets n⟩

end Sys2Proof.Machine
end
